-- ==== Sys2Proof/Word.lean ====
section
/-! DEFINITION. The words of FPQ-PK (00_scope.md R8) and the three lanes (R14). -/

namespace Sys2Proof

/-- `w8` of the spec: an address tag or receiver address (R65). -/
abbrev W8 := BitVec 8

/-- `w16` of the spec: a code (R109). -/
abbrev W16 := BitVec 16

/-- `w32` of the spec: a command word (R60) or an `S` response field (R66). -/
abbrev W32 := BitVec 32

/-- `w64` of the spec: a binary64 pattern (R10) or a packet word (R142). -/
abbrev W64 := BitVec 64

/-- One value for each of the three lanes X, Y and Z (R14). -/
structure Lanes (α : Type) where
  x : α
  y : α
  z : α
deriving DecidableEq, Repr

end Sys2Proof
end

