-- ==== Sys2Proof/Syntax.lean ====
section
/-! DEFINITION. The commands of FPQ-PK, one constructor per row of the opcode table (30_encoding.md R62, R63). -/

namespace Sys2Proof

/-- A legal command. The operand ports (R64) are no part of it: a command finds them in the state it runs in. -/
inductive Instr where
  /-- INIT, the build/init call (41_codec.md R124). -/
  | init
  /-- PACK, the encode-triple-to-packet call; `tag` is the packet's address tag (42_packet.md R145). -/
  | pack (tag : W8)
  /-- UNPACK, the decode-if-addressed call; `rx` is the receiver's own address (42_packet.md R146). -/
  | unpack (rx : W8)
deriving DecidableEq, Repr

/-- Why a command word is illegal: the four cases of 30_encoding.md R69, in the order R70 meets them. -/
inductive Illegal where
  /-- `RSV1`, bits 31:16, is not 0. -/
  | nonzeroRsv1
  /-- `RSV0`, bits 7:4, is not 0. -/
  | nonzeroRsv0
  /-- `OP` is INIT and `TAG` is not 0. -/
  | initWithTag
  /-- `OP` is 0x0 or 0x4 to 0xF. -/
  | reservedOpcode
deriving DecidableEq, Repr

end Sys2Proof
end

