-- ==== Sys2Proof/Decode.lean ====
section
/-! DEFINITION. The command word (30_encoding.md R60 to R63): decoding it (R70), encoding it (R74), and the rows of the
opcode table (R63). -/

namespace Sys2Proof

/-- `OP`, bits 3:0 of a command word (R61). -/
def opField (w : W32) : BitVec 4 := w.extractLsb' 0 4

/-- `RSV0`, bits 7:4 (R61). -/
def rsv0Field (w : W32) : BitVec 4 := w.extractLsb' 4 4

/-- `TAG`, bits 15:8 (R61), an unsigned 8-bit value (R65). -/
def tagField (w : W32) : W8 := w.extractLsb' 8 8

/-- `RSV1`, bits 31:16 (R61). -/
def rsv1Field (w : W32) : BitVec 16 := w.extractLsb' 16 16

/-- `decode_cmd` (R70), total on all 2^32 words: a legal command, or the reason of R69 why the word is illegal. -/
def decodeCmd (w : W32) : Except Illegal Instr :=
  if rsv1Field w ≠ 0 then .error .nonzeroRsv1
  else if rsv0Field w ≠ 0 then .error .nonzeroRsv0
  else match (opField w).toNat with
    | 1 => if tagField w ≠ 0 then .error .initWithTag else .ok .init
    | 2 => .ok (.pack (tagField w))
    | 3 => .ok (.unpack (tagField w))
    | _ => .error .reservedOpcode

/-- The command word of a command (R74): the opcode, and `tag << 8` or `rx << 8`. -/
def encodeCmd : Instr → W32
  | .init => 0x00000001
  | .pack tag => 0x00000002 ||| (tag.setWidth 32 <<< 8)
  | .unpack rx => 0x00000003 ||| (rx.setWidth 32 <<< 8)

/-- `match` of a command's row in the opcode table (R63). -/
def rowMatch : Instr → W32
  | .init => 0x00000001
  | .pack _ => 0x00000002
  | .unpack _ => 0x00000003

/-- `mask` of a command's row in the opcode table (R63). -/
def rowMask : Instr → W32
  | .init => 0xFFFFFFFF
  | .pack _ => 0xFFFF00FF
  | .unpack _ => 0xFFFF00FF

/-- The command word whose bits are `w`, of which the table gives the low `nbits`; every bit above them is 0. -/
def tableWord (nbits w : Nat) : W32 := BitVec.ofNat 32 (w % 2 ^ nbits)

/-- The command the decoder reads from a word numbered as spec/opcode_table.json numbers it. A command is one 32-bit
parallel word (R60), so no byte order enters. -/
def decodeTableWord (nbits w : Nat) : Option Instr :=
  match decodeCmd (tableWord nbits w) with
  | .ok i => some i
  | .error _ => none

end Sys2Proof
end

