-- ==== Sys2Proof/Machine/Binary64.lean ====
section
/-! DEFINITION. IEEE 754 binary64 values, RNE64 and RHA (00_scope.md R10 to R12), in exact integer arithmetic. -/

namespace Sys2Proof.Machine.Binary64

/-- The sign bit `b[63]` (R10). -/
def sign (b : W64) : Bool := b.getLsbD 63

/-- The biased exponent `E = b[62:52]` (R10). -/
def biasedExp (b : W64) : Nat := (b.extractLsb' 52 11).toNat

/-- The fraction `Fr = b[51:0]` (R10). -/
def fraction (b : W64) : Nat := (b.extractLsb' 0 52).toNat

/-- `b` is a NaN (R10). -/
def isNaN (b : W64) : Bool := biasedExp b = 2047 ∧ fraction b ≠ 0

/-- `b` is an infinity (R10). -/
def isInf (b : W64) : Bool := biasedExp b = 2047 ∧ fraction b = 0

/-- `b` is finite: neither a NaN nor an infinity (R10). -/
def isFinite (b : W64) : Bool := biasedExp b ≠ 2047

/-- The integer significand of a finite `b`: `2^52 + Fr` when normal, `Fr` when subnormal or zero (R10). -/
def significand (b : W64) : Nat := if biasedExp b = 0 then fraction b else 2 ^ 52 + fraction b

/-- The exponent of the significand's unit: `E - 1075` when normal, `-1074` when subnormal or zero (R10). -/
def unitExp (b : W64) : Int := (max (biasedExp b) 1 : Nat) - 1075

/-- `val(b)`, the exact rational value of a finite `b` (R10). -/
def val (b : W64) : ℚ :=
  (if sign b then -1 else 1) * (significand b : ℚ) * (2 : ℚ) ^ unitExp b

/-- `n / d` rounded to the nearest natural number, ties to the even one (R11's rounding of `m` to `M`). -/
def rneDiv (n d : Nat) : Nat :=
  let q := n / d
  let r := n % d
  if 2 * r < d then q else if d < 2 * r then q + 1 else if q % 2 = 0 then q else q + 1

/-- `floor(log2 (num / den))` for a positive fraction (R11). -/
def floorLog2 (num den : Nat) : Int :=
  let k : Int := (num.log2 : Int) - (den.log2 : Int)
  if den * 2 ^ k.toNat ≤ num * 2 ^ (-k).toNat then k else k - 1

/-- The pattern of sign `neg` whose low 63 bits are `mag`. -/
def withSign (neg : Bool) (mag : Nat) : W64 :=
  BitVec.ofNat 64 (if neg then 2 ^ 63 + mag else mag)

/-- The low 63 bits of an infinity. -/
def infMag : Nat := 2047 * 2 ^ 52

/-- The low 63 bits of the finite value `M * 2^(e-52)`, `-1022 <= e <= 1023`: normal when `M >= 2^52`, subnormal
when `M < 2^52` (R11; then `e = -1022`). -/
def finiteMag (M : Nat) (e : Int) : Nat :=
  if 2 ^ 52 ≤ M then (e + 1023).toNat * 2 ^ 52 + (M - 2 ^ 52) else M

/-- `RNE64` (R11) of the rational of sign `neg` and magnitude `num / den`, `den` positive. For magnitude 0 the result
is a zero of sign `neg`: the caller says which zero (R11, 41_codec.md R104). -/
def rne64 (neg : Bool) (num den : Nat) : W64 :=
  if num = 0 then withSign neg 0
  else
    let e := max (floorLog2 num den) (-1022)
    let M := rneDiv (num * 2 ^ (52 - e).toNat) (den * 2 ^ (e - 52).toNat)
    if M = 2 ^ 53 then
      if 1023 < e + 1 then withSign neg infMag else withSign neg (finiteMag (2 ^ 52) (e + 1))
    else if 1023 < e then withSign neg infMag
    else withSign neg (finiteMag M e)

/-- `RHA(val(b))` of a finite `b`: the nearest integer, ties away from zero, `sign * floor(|val| + 1/2)` (R12). -/
def rha (b : W64) : Int :=
  let u := unitExp b
  let m := significand b
  let a := if 0 ≤ u then m * 2 ^ u.toNat else (2 * m + 2 ^ (-u).toNat) / 2 ^ ((-u).toNat + 1)
  if sign b then -(a : Int) else a

/-- `RNE64(val(v) * k)` of a finite `v`: the binary64 product; a zero keeps the sign of `v` (41_codec.md R104). -/
def mulNat (v : W64) (k : Nat) : W64 :=
  rne64 (sign v) (significand v * k * 2 ^ (unitExp v).toNat) (2 ^ (-(unitExp v)).toNat)

/-- `RNE64(s / k)` of an integer `s`, `k` positive: the correctly rounded quotient, +0.0 for `s = 0` (41_codec.md R131). -/
def divNat (s : Int) (k : Nat) : W64 := rne64 (decide (s < 0)) s.natAbs k

end Sys2Proof.Machine.Binary64
end

