-- ==== Sys2Proof/Config.lean ====
section
/-! DEFINITION. The parameters of FPQ-PK (00_scope.md R6, R7; 10_state.md R26) and the values the spec leaves open. -/

namespace Sys2Proof

/-- `CODEC_POLICY` (R6). -/
inductive Policy where
  /-- `WRAP`: truncate to 16 bits, last-write-wins table (R106, R121). -/
  | wrap
  /-- `RANGE_CHECKED`: reject a scaled value beyond `RANGE_BOUND` (R107, R121). -/
  | rangeChecked
deriving DecidableEq, Repr

/-- The build-time configuration (R26): fixed when the block is built, written by no command and by no reset. -/
structure Config where
  /-- `CODEC_POLICY`. -/
  policy : Policy
  /-- `ENUM_LO`. -/
  enumLo : Int
  /-- `ENUM_HI`. -/
  enumHi : Int
  /-- `RANGE_BOUND`, used only by `RANGE_CHECKED`. -/
  rangeBound : Nat
deriving DecidableEq, Repr

/-- FPQ-PK-WRAP, the configuration this hardware takes (R2, R6, R26). -/
def Config.fpqPkWrap : Config :=
  { policy := .wrap, enumLo := -9999999, enumHi := 9999999, rangeBound := 32767 }

/-- The variant of R6 with `CODEC_POLICY = RANGE_CHECKED`, everything else as in FPQ-PK-WRAP. -/
def Config.fpqPkRangeChecked : Config :=
  { Config.fpqPkWrap with policy := .rangeChecked }

/-- `SCALE` (R6). -/
def Config.scale : Nat := 10000

/-- `CODE_W` (R6). -/
def Config.codeWidth : Nat := 16

/-- `NCODES`, the number of table entries (R6, R7). -/
def Config.nCodes : Nat := 65536

/-- `ADDR_W` (R6). -/
def Config.addrWidth : Nat := 8

/-- `LANES` (R6). -/
def Config.lanes : Nat := 3

/-- `PKT_W` (R6). -/
def Config.packetWidth : Nat := 64

/-- `DATA_W` (R6). -/
def Config.dataWidth : Nat := 56

/-- The domain `(lo, hi)` that BuildTable enumerates, by policy (41_codec.md R120, R121). -/
def Config.domain (cfg : Config) : Int × Int :=
  match cfg.policy with
  | .wrap => (cfg.enumLo, cfg.enumHi)
  | .rangeChecked => (-(cfg.rangeBound : Int), (cfg.rangeBound : Int))

/-- `L_INIT`: cycles from acceptance to response of an INIT that builds the table; OPEN in the spec
(30_encoding.md R72), so it has no body here. Log entry 10. -/
opaque Config.lInit : Nat

/-- `L_PACK` (30_encoding.md R72), OPEN. Log entry 10. -/
opaque Config.lPack : Nat

/-- `L_UNPACK` (30_encoding.md R72), OPEN. Log entry 10. -/
opaque Config.lUnpack : Nat

/-- The latency of every other command (30_encoding.md R72: an INIT with READY = 1, an illegal command, one
refused with NOT_READY), OPEN and free for each command: the argument numbers the accepted commands. Log entry 10. -/
opaque Config.otherLatency : Nat → Nat

/-- The unspecified entry `T[c]` that a reset leaves (70_reset_and_hazards.md R210; 93 I12): the first argument
numbers the resets, the second is the code. `none` is EMPTY. Log entry 5. -/
opaque Config.resetEntry : Nat → Nat → Option Int

end Sys2Proof
end

