-- ==== Sys2Proof/Machine/State.lean ====
section
/-! DEFINITION. What FPQ-PK holds (10_state.md R20 to R33), and how a step can stop. Plain data throughout. -/

namespace Sys2Proof.Machine

/-- One run of the decode table: from code `start` on (up to the next run), `T[c]` is EMPTY when `delta` is `none`,
and `c + d` when `delta` is `some d`. -/
structure Run where
  start : Nat
  delta : Option Int
deriving DecidableEq, Repr

/-- The decode table T (R23, R24), 65536 entries, each EMPTY or an integer, held as its runs: any array of 65536
entries has exactly one well-formed list of runs (log entry 3). Codes before the first run are EMPTY. -/
structure Table where
  runs : List Run
deriving DecidableEq, Repr

/-- The status of a response (30_encoding.md R67). Codes 0x8 to 0xF are never produced and have no constructor (93 I16). -/
inductive Status where
  | ok
  | accepted
  | rejected
  | notReady
  | unknownCode
  | unrepresentable
  | invalidOperand
  | illegalCommand
deriving DecidableEq, Repr

/-- What the host offers with a command: the command word and the operand ports (30_encoding.md R60, R64). -/
structure Request where
  cmd : W32
  opx : W64
  opy : W64
  opz : W64
  pktIn : W64
deriving DecidableEq, Repr

/-- The response record (30_encoding.md R66). -/
structure Response where
  status : Status
  lmask : BitVec 3
  pkt : W64
  vx : W64
  vy : W64
  vz : W64
  sx : W32
  sy : W32
  sz : W32
deriving DecidableEq, Repr

/-- The block's inputs at one rising clock edge (30_encoding.md R71). -/
structure Pins where
  rst : Bool
  cmdValid : Bool
  req : Request
  rspReady : Bool
deriving DecidableEq, Repr

/-- One thing the host does to the block. -/
inductive HostEvent where
  /-- A command, taken as one atomic transaction (10_state.md R32, 20_memory.md R47). -/
  | command (req : Request)
  /-- A reset (70_reset_and_hazards.md R210). -/
  | reset
  /-- One rising clock edge of the reference port level with these inputs (30_encoding.md R71). -/
  | edge (pins : Pins)
deriving DecidableEq, Repr

/-- The state of the machine. The first four fields are all the state the spec names (R31, R33); the next four are
what the reference port level of R71 holds between clock edges; the last four are the model's own. -/
structure State where
  /-- CODEC_POLICY, ENUM_LO, ENUM_HI and RANGE_BOUND (R26): no step changes them. -/
  cfg : Config
  /-- READY (R22). -/
  ready : Bool
  /-- T, the decode table (R23). -/
  table : Table
  /-- BUSY (R30): a command is accepted and its response not yet handed over. -/
  busy : Bool
  /-- The command word and operand ports as sampled at acceptance (R71, R219). -/
  req : Request
  /-- Clock cycles since acceptance (R72). -/
  elapsed : Nat
  /-- `rsp_valid`: a response is offered (R71). -/
  rspValid : Bool
  /-- The response fields (R66), stable while `rspValid` (R71); at other times what they hold is the model's choice
(log entries 6 and 19). -/
  rsp : Response
  /-- The model's own: how many commands were accepted; numbers the free latencies of R72. -/
  accepted : Nat
  /-- The model's own: how many resets there were; numbers the free table contents of R210. -/
  resets : Nat
  /-- The model's own: what the host does next, first first. -/
  host : List HostEvent
  /-- The model's own: the responses delivered, in order, the observable result of a run (R222). -/
  log : List Response
deriving DecidableEq, Repr

/-- Why a step can stop with a fault: there is no such reason. Nothing is fatal in FPQ-PK and it has no traps
(60_exceptions.md R180, R182); every error is a response status. Safe: a type with no value shuts nothing out. -/
inductive Fault where
deriving DecidableEq, Repr

/-- Why a step can be refused. -/
inductive Refusal where
  /-- Raised by an arm of `exec` whose instruction has no meaning yet. Safe: nothing can be proved of a run that meets
  it. No arm raises it. -/
  | notModelled (mnemonic : String)
deriving DecidableEq, Repr

/-- The table whose every entry is EMPTY: a code that no run covers reads as EMPTY. -/
def Table.empty : Table := { runs := [] }

/-- A request whose every port is 0. -/
def Request.zero : Request := { cmd := 0, opx := 0, opy := 0, opz := 0, pktIn := 0 }

/-- A response whose every field is 0 (status code 0x0 is OK). A field that a response does not name keeps this
value (00_scope.md R13, 30_encoding.md R68). -/
def Response.blank : Response :=
  { status := .ok, lmask := 0, pkt := 0, vx := 0, vy := 0, vz := 0, sx := 0, sy := 0, sz := 0 }

/-- The machine right after reset, with nothing for the host to do (10_state.md R33): READY = 0, BUSY = 0,
`rsp_valid` = 0, the configuration FPQ-PK-WRAP. DESIGN CHOICE, unsafe: the spec leaves T unspecified and it is EMPTY
here (log entry 4); `req`, `rsp` and `elapsed` are 0 (log entry 6); the model's own fields are 0 or empty (log entry 12). -/
def State.reset : State :=
  { cfg := Config.fpqPkWrap, ready := false, table := Table.empty, busy := false, req := Request.zero,
    elapsed := 0, rspValid := false, rsp := Response.blank, accepted := 0, resets := 0, host := [], log := [] }

end Sys2Proof.Machine
end

