-- ==== Sys2Proof/Machine/Table.lean ====
section
/-! DEFINITION. The decode table T: reading, writing and building it (10_state.md R23, R24; 41_codec.md R120 to R126). -/

namespace Sys2Proof.Machine

/-- The delta in force at code `c` in a list of runs, `cur` being the one in force before the list. -/
def deltaAt (cur : Option Int) : List Run → Nat → Option Int
  | [], _ => cur
  | r :: rs, c => if c < r.start then cur else deltaAt r.delta rs c

/-- The entry at code number `c`: `none` is EMPTY. -/
def Table.entry (t : Table) (c : Nat) : Option Int :=
  (deltaAt none t.runs c).map (fun d => d + (c : Int))

/-- `T[c]` as a read (00_scope.md R13): one whole entry, no side effect (20_memory.md R41). -/
def Table.read (t : Table) (c : W16) : Option Int := t.entry c.toNat

/-- The runs are in canonical form from code `lo` on, `cur` being the delta in force before them: starts strictly
rising and below 65536, and no run repeats the delta before it. -/
def runsWf (lo : Nat) (cur : Option Int) : List Run → Bool
  | [] => true
  | r :: rs => decide (lo ≤ r.start) && decide (r.start < Config.nCodes) && decide (r.delta ≠ cur) &&
      runsWf (r.start + 1) r.delta rs

/-- The canonical form: equal tables are equal data. -/
def Table.wf (t : Table) : Bool := runsWf 0 none t.runs

/-- The delta of the entry `f c`. -/
def deltaOf (f : Nat → Option Int) (c : Nat) : Option Int := (f c).map (fun v => v - (c : Int))

/-- The runs of the array `f`, looking at the given codes only (rising, and no delta of `f` changes elsewhere), `cur`
being the delta in force before them. -/
def runsOf (f : Nat → Option Int) (cur : Option Int) : List Nat → List Run
  | [] => []
  | c :: cs =>
    if deltaOf f c = cur then runsOf f cur cs
    else { start := c, delta := deltaOf f c } :: runsOf f (deltaOf f c) cs

/-- The table whose entry at every code `c` is `f c`. -/
def Table.ofEntries (f : Nat → Option Int) : Table :=
  { runs := runsOf f none (List.range Config.nCodes) }

/-- The codes at which a delta can change once the entry at `c` is written. -/
def breaksAround (rs : List Run) (c : Nat) : List Nat :=
  (rs.map Run.start).filter (fun k => decide (k < c)) ++
    (c :: (if c + 1 < Config.nCodes then [c + 1] else [])) ++
      (rs.map Run.start).filter (fun k => decide (c + 1 < k))

/-- `T[c] <- e` (00_scope.md R13): entry `c` becomes `e`, every other entry stays. -/
def Table.write (t : Table) (c : W16) (e : Option Int) : Table :=
  { runs := runsOf (fun k => if k = c.toNat then e else t.entry k) none (breaksAround t.runs c.toNat) }

/-- The code `i mod 65536` of a scaled integer: its low 16 bits in two's complement (00_scope.md R9, 41_codec.md R106). -/
def codeOf (i : Int) : W16 := BitVec.ofInt 16 i

/-- BuildTable's clearing pass: `T[c] <- EMPTY` for every `c` (R120). -/
def Table.clearAll (t : Table) : Table :=
  (List.range Config.nCodes).foldl (fun u c => u.write (BitVec.ofNat 16 c) none) t

/-- BuildTable's enumeration of `n` integers from `i` up, in ascending order: `T[i mod 65536] <- i`, a later write
overwriting an earlier one (R120). -/
def Table.enumerate (t : Table) (i : Int) : Nat → Table
  | 0 => t
  | n + 1 => Table.enumerate (t.write (codeOf i) (some i)) (i + 1) n

/-- `BuildTable()` of R120, write by write, from whatever the table holds. -/
def buildTable (cfg : Config) (t : Table) : Table :=
  t.clearAll.enumerate cfg.domain.1 (cfg.domain.2 - cfg.domain.1 + 1).toNat

/-- The greatest integer of `[lo, hi]` whose code is `c`, if there is one (R122). -/
def greatestInClass (lo hi : Int) (c : Nat) : Option Int :=
  let i := hi - (hi - (c : Int)) % 65536
  if lo ≤ i then some i else none

/-- The codes at which the delta of `greatestInClass lo hi` can change: where the class first has a member, and just
after the code of `hi`, where the greatest member lies one 65536 lower. -/
def builtBreaks (lo hi : Int) : List Nat :=
  let h := (hi % 65536).toNat
  let a := (lo - (hi - (h : Int))).toNat
  let b := (lo - (hi - (h : Int)) + 65536).toNat
  0 :: ((if 0 < a ∧ a ≤ h then [a] else []) ++ (if h + 1 < 65536 then [h + 1] else []) ++
    (if h + 1 < b ∧ b < 65536 then [b] else []))

/-- The table that BuildTable leaves, computed by the closed form of R122 (and R126) instead of by enumeration, as
70_reset_and_hazards.md R221 allows a hardware INIT to do (log entry 7). -/
def builtTable (cfg : Config) : Table :=
  { runs := runsOf (greatestInClass cfg.domain.1 cfg.domain.2) none (builtBreaks cfg.domain.1 cfg.domain.2) }

end Sys2Proof.Machine
end

