-- ==== Sys2Proof/Machine/Ops.lean ====
section
/-! DEFINITION. The named operations every command and every clock edge is made of: respond and raise (00_scope.md R13),
accept and deliver (30_encoding.md R71), reset (70_reset_and_hazards.md R210). -/

namespace Sys2Proof.Machine

/-- `respond(...)` (R13): the command ends and its response is offered (R71). -/
def respond (r : Response) (s : State) : State := { s with rsp := r, rspValid := true }

/-- `raise S(mask)` (R13, 60_exceptions.md R182), which stands in for taking an exception: the response carries the
status and the lane mask, every other field is 0, and READY and T keep their values. FPQ-PK saves nothing, changes no
mode and has no handler and no return (R180, R192), so there is no operation for a return either. -/
def raise (st : Status) (mask : BitVec 3) (s : State) : State :=
  respond { Response.blank with status := st, lmask := mask } s

/-- Acceptance of a command (R71): the command word and the operand ports are sampled, BUSY becomes 1 (R30), and the
count of cycles starts. The response fields keep what they hold (DESIGN CHOICE, log entry 19). -/
def accept (r : Request) (s : State) : State :=
  { s with req := r, busy := true, rspValid := false, elapsed := 0, accepted := s.accepted + 1 }

/-- Delivery of the offered response (R71): the host has it, `rsp_valid` falls and BUSY becomes 0. R71 fixes the response
fields up to this edge only. DESIGN CHOICE, unsafe: they keep the delivered response until the next one (log entry 19). -/
def deliver (s : State) : State :=
  { s with log := s.log ++ [s.rsp], rspValid := false, busy := false }

/-- A reset (R210): READY and BUSY become 0, every entry of T takes an unspecified value, the configuration stays. A
command in flight ends with no response (R212), so `rsp_valid` falls (R211). The sampled ports and the response fields,
which nothing can read before the next command, are 0 as in `State.reset` (log entry 6). -/
def resetBlock (s : State) : State :=
  { s with ready := false, busy := false, table := Table.ofEntries (Config.resetEntry s.resets), rspValid := false,
           req := Request.zero, rsp := Response.blank, elapsed := 0, resets := s.resets + 1 }

/-- READY and T as a completed build leaves them (41_codec.md R124, R125). -/
def buildAndSetReady (s : State) : State := { s with table := builtTable s.cfg, ready := true }

/-- A function of the next state, where there is one. -/
def mapNext (f : State → State) : Host.Outcome State Fault Refusal → Host.Outcome State Fault Refusal
  | .next s => .next (f s)
  | .fault r => .fault r
  | .refused r => .refused r

end Sys2Proof.Machine
end

