-- ==== Sys2Proof/Machine/Codec.lean ====
section
/-! DEFINITION. The codec (41_codec.md): encode (R101 to R112), decode (R130, R131, R134) and INIT (R124, R125). -/

namespace Sys2Proof.Machine

/-- The three results of encode (R101). -/
inductive EncodeResult where
  /-- `CODE(c)`. -/
  | code (c : W16)
  /-- `INVALID`: the value or its product is a NaN or an infinity (R103, R104). -/
  | invalid
  /-- `UNREP`: the scaled value lies beyond the bound (R107). -/
  | unrep
deriving DecidableEq, Repr

/-- The two results of decode (R130). -/
inductive DecodeResult where
  /-- `VALUE(s, b)`: the scaled integer and its binary64 pattern. -/
  | value (s : Int) (b : W64)
  /-- `UNKNOWN`: the table has no entry (R134). -/
  | unknown
deriving DecidableEq, Repr

/-- The binary64 product of a finite value by 10000 (R104). -/
def scaledProduct (v : W64) : W64 := Binary64.mulNat v Config.scale

/-- The scaled integer `n` of a value whose product is finite (R105), exact and unbounded. -/
def scaledInteger (v : W64) : Int := Binary64.rha (scaledProduct v)

/-- `encode(v)` in full (R108). It reads no state but the configuration. -/
def encodeValue (cfg : Config) (v : W64) : EncodeResult :=
  if Binary64.isFinite v = false then .invalid
  else if Binary64.isFinite (scaledProduct v) = false then .invalid
  else if cfg.policy = .rangeChecked ∧ cfg.rangeBound < (scaledInteger v).natAbs then .unrep
  else .code (codeOf (scaledInteger v))

/-- The code of a result that is one; 0 otherwise (PACK uses it only when every lane has a code, R145). -/
def EncodeResult.codeOrZero : EncodeResult → W16
  | .code c => c
  | .invalid => 0
  | .unrep => 0

/-- `decode(c)` in full (R130): the table entry and the correctly rounded quotient by 10000 (R131). -/
def decodeCode (t : Table) (c : W16) : DecodeResult :=
  match t.read c with
  | none => .unknown
  | some e => .value e (Binary64.divNat e Config.scale)

/-- The `V` field of a lane (R131); 0 in an unknown lane (R134, 42_packet.md R146). -/
def DecodeResult.vField : DecodeResult → W64
  | .value _ b => b
  | .unknown => 0

/-- The `S` field of a lane, the scaled integer in 32-bit two's complement (R131); 0 in an unknown lane. -/
def DecodeResult.sField : DecodeResult → W32
  | .value s _ => BitVec.ofInt 32 s
  | .unknown => 0

/-- INIT (R124): nothing but OK when the table is built already; else the table is built and then READY set (R125). -/
def execInit (s : State) : Host.Outcome State Fault Refusal :=
  if s.ready then .next (respond { Response.blank with status := .ok } s)
  else .next (respond { Response.blank with status := .ok } (buildAndSetReady s))

end Sys2Proof.Machine
end

