-- ==== Sys2Proof/Machine/Flags.lean ====
section
/-! DEFINITION. The outcome fields of a response: status codes and lane masks (30_encoding.md R66, R67; 00_scope.md R14).
FPQ-PK has no flags that persist (10_state.md R27); these are the whole of it. -/

namespace Sys2Proof.Machine

/-- The 4-bit code of a status (R67). -/
def Status.code : Status → BitVec 4
  | .ok => 0x0
  | .accepted => 0x1
  | .rejected => 0x2
  | .notReady => 0x3
  | .unknownCode => 0x4
  | .unrepresentable => 0x5
  | .invalidOperand => 0x6
  | .illegalCommand => 0x7

/-- `LMASK` (R14): bit 2 is lane X, bit 1 is lane Y, bit 0 is lane Z. -/
def laneMask (l : Lanes Bool) : BitVec 3 :=
  BitVec.ofBool l.x ++ BitVec.ofBool l.y ++ BitVec.ofBool l.z

/-- The lanes of an `LMASK` (R14). -/
def maskLanes (m : BitVec 3) : Lanes Bool := { x := m[2], y := m[1], z := m[0] }

end Sys2Proof.Machine
end

