-- ==== Sys2Proof/Machine/Operands.lean ====
section
/-! DEFINITION. The operand ports and the three lanes (30_encoding.md R64, R65; 00_scope.md R14). Every operand form
the spec gives: TAG travels in the instruction, OPX, OPY and OPZ are binary64 patterns, PKT_IN is a packet word. -/

namespace Sys2Proof.Machine

/-- The same function on each lane. -/
def mapLanes {α β : Type} (f : α → β) (l : Lanes α) : Lanes β := { x := f l.x, y := f l.y, z := f l.z }

/-- OPX, OPY and OPZ as sampled at acceptance (R64), read by PACK only. -/
def valueOperands (s : State) : Lanes W64 := { x := s.req.opx, y := s.req.opy, z := s.req.opz }

/-- PKT_IN as sampled at acceptance (R64), read by UNPACK only. -/
def packetOperand (s : State) : W64 := s.req.pktIn

end Sys2Proof.Machine
end

