-- ==== Sys2Proof/Machine/Packet.lean ====
section
/-! DEFINITION. The packet layout (42_packet.md): composing, extracting and comparing (R141 to R144), PACK (R145),
UNPACK (R146), and the byte view of a packet word (20_memory.md R42, R43). -/

namespace Sys2Proof.Machine

/-- The composite field of three codes (R141). -/
def composite (c : Lanes W16) : W64 :=
  (c.x.setWidth 64 <<< 32) ||| (c.y.setWidth 64 <<< 16) ||| c.z.setWidth 64

/-- The packet word of an address tag and a composite (R142): `(field << 8) | zext_64(addr)`. -/
def packetWord (addr : W8) (field : BitVec 64) : W64 := (field <<< 8) ||| addr.setWidth 64

/-- `addr(W)` (R143). -/
def packetAddr (w : W64) : W8 := w.extractLsb' 0 8

/-- `cx(W)`, `cy(W)` and `cz(W)` (R143); bits 63:56 are not read. -/
def packetCodes (w : W64) : Lanes W16 :=
  { x := w.extractLsb' 40 16, y := w.extractLsb' 24 16, z := w.extractLsb' 8 16 }

/-- The address comparator (R144): 8-bit equality, no wildcard, no mask. -/
def addrMatches (w : W64) (rx : W8) : Bool := packetAddr w == rx

/-- Byte `k` of a packet word, `P[8k+7:8k]`: little-endian (20_memory.md R42, R43), fixed (R45). A host's view; the
block never moves a packet by bytes. -/
def packetByte (w : W64) (k : Nat) : W8 := w.extractLsb' (8 * k) 8

/-- The 8 bytes of a packet word, byte 0 first (20_memory.md R42). -/
def packetBytes (w : W64) : List W8 := (List.range 8).map (packetByte w)

/-- The packet word of a list of bytes, byte 0 first (20_memory.md R42). -/
def packetOfBytes : List W8 → BitVec 64
  | [] => 0
  | b :: bs => (packetOfBytes bs <<< 8) ||| b.setWidth 64

/-- PACK (R145): NOT_READY before any operand is looked at, then INVALID_OPERAND, then UNREPRESENTABLE, then OK with
the packet (precedence 60_exceptions.md R189). It writes no state but its response. -/
def execPack (tag : W8) (s : State) : Host.Outcome State Fault Refusal :=
  if s.ready = false then .next (raise .notReady 0 s)
  else
    let r := mapLanes (encodeValue s.cfg) (valueOperands s)
    let inv := laneMask (mapLanes (fun e => e == .invalid) r)
    let unr := laneMask (mapLanes (fun e => e == .unrep) r)
    if inv ≠ 0 then .next (raise .invalidOperand inv s)
    else if unr ≠ 0 then .next (raise .unrepresentable unr s)
    else .next (respond
      { Response.blank with
        status := .ok
        pkt := packetWord tag (composite (mapLanes EncodeResult.codeOrZero r)) } s)

/-- UNPACK (R146): NOT_READY, then REJECTED with no table read, then UNKNOWN_CODE with the unknown lanes marked and
zero, or ACCEPTED (precedence 60_exceptions.md R189). It writes no state but its response. -/
def execUnpack (rx : W8) (s : State) : Host.Outcome State Fault Refusal :=
  if s.ready = false then .next (raise .notReady 0 s)
  else if addrMatches (packetOperand s) rx = false then
    .next (respond { Response.blank with status := .rejected } s)
  else
    let d := mapLanes (decodeCode s.table) (packetCodes (packetOperand s))
    let unk := laneMask (mapLanes (fun e => e == .unknown) d)
    .next (respond
      { Response.blank with
        status := if unk = 0 then .accepted else .unknownCode
        lmask := unk
        vx := d.x.vField, vy := d.y.vField, vz := d.z.vField
        sx := d.x.sField, sy := d.y.sField, sz := d.z.sField } s)

end Sys2Proof.Machine
end

