-- ==== Sys2Proof/Machine/Dispatch.lean ====
section
/-! DEFINITION. The meaning of every command, one arm per constructor of Instr. -/

namespace Sys2Proof.Machine

def exec (i : Instr) (s : State) : Host.Outcome State Fault Refusal :=
  match i with
  | .init => Sys2Proof.Machine.execInit s
  | .pack tag => Sys2Proof.Machine.execPack tag s
  | .unpack rx => Sys2Proof.Machine.execUnpack rx s

end Sys2Proof.Machine
end

