-- ==== Sys2Proof/Machine/Port.lean ====
section
/-! DEFINITION. Running the command in flight, the atomic transaction (10_state.md R32), and the reference port level
at the grain of clock edges (30_encoding.md R71, R72; 70_reset_and_hazards.md R211, R212). -/

namespace Sys2Proof.Machine

/-- The command in flight runs: the sampled word is decoded (30_encoding.md R70) and a legal command has its meaning.
An illegal word raises ILLEGAL_COMMAND with mask 0, whatever READY is and before any operand is read
(R69, 60_exceptions.md R183, R189). -/
def runCommand (s : State) : Host.Outcome State Fault Refusal :=
  match decodeCmd s.req.cmd with
  | .ok i => exec i s
  | .error _ => .next (raise .illegalCommand 0 s)

/-- The command in flight ends: it runs unless it has run already, and its response is delivered. -/
def completeCommand (s : State) : Host.Outcome State Fault Refusal :=
  if s.rspValid then .next (deliver s) else mapNext deliver (runCommand s)

/-- One command as one indivisible step (R32, 20_memory.md R47): accepted, run, and its response delivered. -/
def transact (r : Request) (s : State) : Host.Outcome State Fault Refusal := completeCommand (accept r s)

/-- The latency of the command in flight, at least 1 (R72): `L_INIT` for an INIT that builds, `L_PACK` and `L_UNPACK`
for a PACK and an UNPACK that are not refused with NOT_READY, and a free value for any other command. -/
def latency (s : State) : Nat :=
  max 1 (match decodeCmd s.req.cmd with
    | .ok .init => if s.ready then Config.otherLatency s.accepted else Config.lInit
    | .ok (.pack _) => if s.ready then Config.lPack else Config.otherLatency s.accepted
    | .ok (.unpack _) => if s.ready then Config.lUnpack else Config.otherLatency s.accepted
    | .error _ => Config.otherLatency s.accepted)

/-- The block's outputs (R71). -/
structure Outputs where
  cmdReady : Bool
  rspValid : Bool
  rsp : Response
deriving DecidableEq, Repr

/-- The outputs while `rst` has the given value: `cmd_ready` is `(not BUSY) and (not rst)` (R71), and `rsp_valid` is 0
while `rst` is 1 (R211). The response fields mean something only while `rspValid` is 1; what they carry at any other time,
after a delivery and during the next command's latency among others, the spec leaves open. DESIGN CHOICE, unsafe: the last
response offered, or zeros since a reset (log entries 19 and 6). -/
def outputs (rst : Bool) (s : State) : Outputs :=
  { cmdReady := !s.busy && !rst, rspValid := s.rspValid && !rst, rsp := s.rsp }

/-- One rising clock edge (R71, R211). With `rst` the reset values are in place and any command in flight is gone
(R212). An idle block accepts the command offered. A block that offers a response waits for `rsp_ready` and then
delivers. A block with a command in flight counts cycles, and on the edge at which the latency is reached the command
takes all its effects and its response is offered. -/
def clockEdge (p : Pins) (s : State) : Host.Outcome State Fault Refusal :=
  if p.rst then .next (resetBlock s)
  else if s.busy = false then .next (if p.cmdValid then accept p.req s else s)
  else if s.rspValid then .next (if p.rspReady then deliver s else s)
  else if latency s ≤ s.elapsed + 1 then runCommand { s with elapsed := s.elapsed + 1 }
  else .next { s with elapsed := s.elapsed + 1 }

end Sys2Proof.Machine
end

