-- ==== Sys2Proof/Machine/Step.lean ====
section
/-! DEFINITION. One step of the machine: the host's next event takes effect. -/

namespace Sys2Proof.Machine

/-- One step. With nothing for the host to do the block idles and keeps its state (60_exceptions.md R199, 70 R213).
A reset and a clock edge act as they say. A command offered to an idle block is one transaction (10_state.md R32); one
offered while BUSY = 1 is not accepted yet and stays offered (70 R217), and the command in flight ends first (R221). -/
def step (s : State) : Host.Outcome State Fault Refusal :=
  match s.host with
  | [] => .next s
  | .reset :: es => .next (resetBlock { s with host := es })
  | .edge p :: es => clockEdge p { s with host := es }
  | .command r :: es => if s.busy then completeCommand s else transact r { s with host := es }

/-- `s` with a command word offered next, the operand ports as they were last sampled, to a block that is not busy:
the very next step accepts and runs it. -/
def State.withFetchWord (s : State) (nbits w : Nat) : State :=
  { s with busy := false, host := .command { s.req with cmd := tableWord nbits w } :: s.host }

end Sys2Proof.Machine
end

