-- ==== Sys2Proof/Machine/Asm.lean ====
section
/-! DEFINITION. The assembly syntax (30_encoding.md R73) and the command it stands for (R74): lines as terms, their
translation to what the host offers, and a parser of their text (log entry 14). -/

namespace Sys2Proof.Machine

/-- A value operand of PACK as written (R73). -/
inductive AsmValue where
  /-- A decimal literal: the digits without their point, and how many stand after it. -/
  | decimal (neg : Bool) (digits places : Nat)
  /-- `b64:0x...`, the pattern itself. -/
  | pattern (b : W64)
  /-- The token `-0.0`. -/
  | negZero
  /-- The token `inf`. -/
  | inf
  /-- The token `-inf`. -/
  | negInf
  /-- The token `nan`. -/
  | nan
deriving DecidableEq, Repr

/-- One line of assembly (R73). -/
inductive AsmLine where
  | init
  | pack (tag : W8) (x y z : AsmValue)
  | unpack (rx : W8) (pkt : W64)
  /-- `.cmd 0x...`: any command word, legal or not. -/
  | cmd (w : W32)
deriving DecidableEq, Repr

/-- The binary64 pattern of a written value (R73): `RNE64(d)` of a decimal `d`, where zero is +0.0 (R11), and the
patterns that R73 lists for its tokens. -/
def AsmValue.bits : AsmValue → W64
  | .decimal neg digits places => Binary64.rne64 (neg && decide (digits ≠ 0)) digits (10 ^ places)
  | .pattern b => b
  | .negZero => 0x8000000000000000
  | .inf => 0x7FF0000000000000
  | .negInf => 0xFFF0000000000000
  | .nan => 0x7FF8000000000000

/-- What the host offers for a line (R73, R74); a port that the line does not fill is 0. -/
def assemble : AsmLine → Request
  | .init => { Request.zero with cmd := encodeCmd .init }
  | .pack tag x y z =>
    { Request.zero with cmd := encodeCmd (.pack tag), opx := x.bits, opy := y.bits, opz := z.bits }
  | .unpack rx pkt => { Request.zero with cmd := encodeCmd (.unpack rx), pktIn := pkt }
  | .cmd w => { Request.zero with cmd := w }

/-- The tokens of a line: words separated by spaces or tabs, each comma a token of its own, nothing from `;` on. The
second argument is the word being read, last character first. -/
def asmTokens : List Char → List Char → List (List Char)
  | [], cur => if cur.isEmpty then [] else [cur.reverse]
  | c :: cs, cur =>
    let word := if cur.isEmpty then [] else [cur.reverse]
    if c = ';' then word
    else if c = ' ' ∨ c = '\t' then word ++ asmTokens cs []
    else if c = ',' then word ++ ([','] :: asmTokens cs [])
    else asmTokens cs (c :: cur)

/-- The value of a digit in base 10 or 16. -/
def asmDigit (base : Nat) (c : Char) : Option Nat :=
  let n := c.toNat
  let d := if 48 ≤ n ∧ n ≤ 57 then some (n - 48)
    else if 65 ≤ n ∧ n ≤ 70 then some (n - 55)
    else if 97 ≤ n ∧ n ≤ 102 then some (n - 87)
    else none
  d.filter (fun v => decide (v < base))

/-- The value of a numeral and its number of digits, `acc` and `count` being those of the digits already read; `_`
after a digit only groups (00_scope.md R8). At least one digit is needed. -/
def asmNumeral (base acc count : Nat) : List Char → Option (Nat × Nat)
  | [] => if count = 0 then none else some (acc, count)
  | c :: cs =>
    if c = '_' then if count = 0 then none else asmNumeral base acc count cs
    else match asmDigit base c with
      | some d => asmNumeral base (acc * base + d) (count + 1) cs
      | none => none

/-- A hexadecimal word with its `0x`: its value and its number of digits. -/
def asmHex : List Char → Option (Nat × Nat)
  | '0' :: 'x' :: cs => asmNumeral 16 0 0 cs
  | _ => none

/-- An address: 0 to 255, in decimal or as `0x` hex. -/
def asmByte (cs : List Char) : Option W8 :=
  ((asmHex cs).or (asmNumeral 10 0 0 cs)).bind fun p =>
    if p.1 < 256 then some (BitVec.ofNat 8 p.1) else none

/-- A hexadecimal word of `n` bits. -/
def asmWord (n : Nat) (cs : List Char) : Option (BitVec n) :=
  (asmHex cs).bind fun p => if p.1 < 2 ^ n then some (BitVec.ofNat n p.1) else none

/-- A decimal literal without its sign: digits, or digits, a point and digits. -/
def asmDecimal (neg : Bool) (cs : List Char) : Option AsmValue :=
  (asmNumeral 10 0 0 (cs.takeWhile (· != '.'))).bind fun whole =>
    match cs.dropWhile (· != '.') with
    | [] => some (.decimal neg whole.1 0)
    | _ :: frac => (asmNumeral 10 0 0 frac).map fun p => .decimal neg (whole.1 * 10 ^ p.2 + p.1) p.2

/-- A value operand of PACK. -/
def asmValue (cs : List Char) : Option AsmValue :=
  if cs = ['-', '0', '.', '0'] then some .negZero
  else if cs = ['i', 'n', 'f'] then some .inf
  else if cs = ['-', 'i', 'n', 'f'] then some .negInf
  else if cs = ['n', 'a', 'n'] then some .nan
  else match cs with
    | 'b' :: '6' :: '4' :: ':' :: w => (asmWord 64 w).map .pattern
    | '-' :: d => asmDecimal true d
    | d => asmDecimal false d

/-- One line of text: `none` if it is no line of R73, `some none` if it holds no command (it is blank or a comment). -/
def parseLine (line : List Char) : Option (Option AsmLine) :=
  match asmTokens line [] with
  | [] => some none
  | [['I', 'N', 'I', 'T']] => some (some .init)
  | [['P', 'A', 'C', 'K'], t, [','], x, [','], y, [','], z] =>
    (asmByte t).bind fun t => (asmValue x).bind fun x => (asmValue y).bind fun y =>
      (asmValue z).map fun z => some (.pack t x y z)
  | [['U', 'N', 'P', 'A', 'C', 'K'], r, [','], p] =>
    (asmByte r).bind fun r => (asmWord 64 p).map fun p => some (.unpack r p)
  | [['.', 'c', 'm', 'd'], w] => (asmWord 32 w).map fun w => some (.cmd w)
  | _ => none

end Sys2Proof.Machine
end

