-- ==== Sys2Proof/WellFormed.lean ====
section
/-! DEFINITION. Well-formedness of commands and of configurations. -/

namespace Sys2Proof

/-- Every command term is well formed: `TAG` is 8 bits wide by its type, and every one of its 256 values is a valid
address (30_encoding.md R65). One line per constructor, so that a new command cannot slip past. -/
def Instr.wellFormed : Instr → Bool
  | .init => true
  | .pack _ => true
  | .unpack _ => true

/-- The relations a configuration must hold: `-2^31 <= ENUM_LO <= ENUM_HI <= 2^31 - 1` (00_scope.md R7), and a
`RANGE_BOUND` whose scaled values fit the 32-bit `S` fields as well (DEDUCED from R7's reason; log entry 9). -/
def Config.wellFormed (cfg : Config) : Bool :=
  decide (-2147483648 ≤ cfg.enumLo) && decide (cfg.enumLo ≤ cfg.enumHi) &&
    decide (cfg.enumHi ≤ 2147483647) && decide (cfg.rangeBound ≤ 2147483647)

end Sys2Proof
end

