-- ==== Sys2Proof/Safety.lean ====
section
/-! DEFINITION. What the claims call a good response and a good state. -/

namespace Sys2Proof.Machine

/-- A status under which `LMASK` marks lanes (30_encoding.md R66). -/
def Status.marksLanes : Status → Bool
  | .unknownCode => true
  | .unrepresentable => true
  | .invalidOperand => true
  | .ok => false
  | .accepted => false
  | .rejected => false
  | .notReady => false
  | .illegalCommand => false

/-- A status under which the `V` and `S` fields carry decoded values (30_encoding.md R66). -/
def Status.carriesValues : Status → Bool
  | .accepted => true
  | .unknownCode => true
  | .ok => false
  | .rejected => false
  | .notReady => false
  | .unrepresentable => false
  | .invalidOperand => false
  | .illegalCommand => false

/-- Every field that the status gives no meaning is 0, and a lane that `UNKNOWN_CODE` marks has V = S = 0
(30_encoding.md R66, R68); `LMASK` is not 0 exactly under the statuses that mark lanes; the top byte of a packet is 0
(42_packet.md R148). -/
def Response.disciplined (r : Response) : Prop :=
  (r.status.marksLanes = true ↔ r.lmask ≠ 0) ∧
  (r.status ≠ .ok → r.pkt = 0) ∧
  r.pkt.extractLsb' 56 8 = 0 ∧
  (r.status.carriesValues = false → r.vx = 0 ∧ r.vy = 0 ∧ r.vz = 0 ∧ r.sx = 0 ∧ r.sy = 0 ∧ r.sz = 0) ∧
  (r.lmask[2] = true → r.vx = 0 ∧ r.sx = 0) ∧
  (r.lmask[1] = true → r.vy = 0 ∧ r.sy = 0) ∧
  (r.lmask[0] = true → r.vz = 0 ∧ r.sz = 0)

/-- The invariant of the machine: T is in canonical form; READY = 1 means that T is the built table (10_state.md R22);
a response is offered only while BUSY = 1 (30_encoding.md R71); the offered response and every delivered one are
disciplined. -/
def State.good (s : State) : Prop :=
  s.table.wf = true ∧
  (s.ready = true → s.table = builtTable s.cfg) ∧
  (s.rspValid = true → s.busy = true) ∧
  (s.rspValid = true → s.rsp.disciplined) ∧
  ∀ r ∈ s.log, r.disciplined

/-- Between `s` and `t` nothing changed but the offered response: READY, every entry of T, the configuration, BUSY, the
sampled ports and everything the host holds are as they were. -/
def keepsAllButResponse (s t : State) : Prop :=
  t.cfg = s.cfg ∧ t.ready = s.ready ∧ (∀ c, t.table.read c = s.table.read c) ∧ t.table = s.table ∧ t.busy = s.busy ∧
  t.req = s.req ∧ t.elapsed = s.elapsed ∧ t.accepted = s.accepted ∧ t.resets = s.resets ∧ t.host = s.host ∧ t.log = s.log

/-- The step of `s` is a reset: the reset event, or a clock edge with `rst` (70_reset_and_hazards.md R210, R211). -/
def resetComesNext (s : State) : Prop :=
  (∃ es, s.host = .reset :: es) ∨ ∃ p es, s.host = .edge p :: es ∧ p.rst = true

/-- `RHA(q)` on rationals: nearest integer, ties away from zero, `sign(q) * floor(|q| + 1/2)` (00_scope.md R12). -/
def rhaRat (q : ℚ) : Int := if q < 0 then -⌊-q + 1 / 2⌋ else ⌊q + 1 / 2⌋

/-- The rational of sign `neg` and magnitude `num / den`. -/
def signedRat (neg : Bool) (num den : Nat) : ℚ := (if neg then -1 else 1) * ((num : ℚ) / (den : ℚ))

end Sys2Proof.Machine
end

