-- ==== Sys2Proof/Certificates/Slice0/Obligations.lean ====
section
/-! DEFINITION. The statements for the provers. Each docstring names the rule of spec/ it rests on. -/

open Sys2Proof Sys2Proof.Machine

/-! ### Command words and assembly -/

/-- R63, R70, R74: a word decodes to a command exactly when it is that command's word. So decode inverts encode on every
command, every legal word has one meaning, and no bit of a legal word is dropped. -/
def Obligations.DecodeInvertsEncode : Prop :=
  ∀ (w : W32) (i : Instr), i.wellFormed = true → (decodeCmd w = .ok i ↔ w = encodeCmd i)

/-- R69, R183: the words that are illegal, in the spec's four cases on bits of the word; that every other word is one of
the legal ones; and that a transaction with an illegal word, whatever READY, T and the operands are, answers
ILLEGAL_COMMAND with mask 0 and every other field 0, and leaves READY and T as they were. -/
def Obligations.IllegalWordsAnswerIllegalCommand : Prop :=
  (∀ w : W32, (∃ e, decodeCmd w = .error e) ↔
    (w.toNat % 16 = 0 ∨ 4 ≤ w.toNat % 16) ∨ w.toNat / 16 % 16 ≠ 0 ∨ w.toNat / 65536 ≠ 0 ∨
      (w.toNat % 16 = 1 ∧ w.toNat / 256 % 256 ≠ 0)) ∧
  (∀ w : W32, (∃ e, decodeCmd w = .error e) ∨ w = 1 ∨
    (∃ tag : W8, w.toNat = 2 + 256 * tag.toNat) ∨ (∃ rx : W8, w.toNat = 3 + 256 * rx.toNat)) ∧
  (∀ (r : Request) (s : State) (e : Illegal), decodeCmd r.cmd = .error e →
    ∃ t, transact r s = .next t ∧ t.log = s.log ++ [{ Response.blank with status := .illegalCommand }] ∧
      t.ready = s.ready ∧ t.table = s.table ∧ t.cfg = s.cfg)

/-- 30_encoding.md R63, R69, R74 and 95_test_vectors.md 2.6: a few words written out from the encoding. -/
def Obligations.WrittenOutWordsDecode : Prop :=
  decodeCmd 0b00000000000000000000000000000001 = .ok .init ∧
  decodeCmd 0b00000000000000000000101000000010 = .ok (.pack 10) ∧
  decodeCmd 0b00000000000000001111111100000010 = .ok (.pack 255) ∧
  decodeCmd 0b00000000000000000001100100000011 = .ok (.unpack 25) ∧
  decodeCmd 0x00000101 = .error .initWithTag ∧
  decodeCmd 0x00000012 = .error .nonzeroRsv0 ∧
  decodeCmd 0x80000003 = .error .nonzeroRsv1 ∧
  decodeCmd 0x0000000F = .error .reservedOpcode

/-- R74: the command word of each line of assembly, and the rule's worked examples. -/
def Obligations.AssemblyGivesCommandWords : Prop :=
  (assemble .init).cmd = 0x00000001 ∧
  (∀ tag x y z, (assemble (.pack tag x y z)).cmd.toNat = 2 + 256 * tag.toNat) ∧
  (∀ rx pkt, (assemble (.unpack rx pkt)).cmd.toNat = 3 + 256 * rx.toNat) ∧
  (∀ x y z, (assemble (.pack 10 x y z)).cmd = 0x00000A02) ∧
  (∀ pkt, (assemble (.unpack 25 pkt)).cmd = 0x00001903)

/-! ### Reset -/

/-- R33, R211: what the spec states of the machine after reset. -/
def Obligations.ResetStateHasSpecValues : Prop :=
  State.reset.ready = false ∧ State.reset.busy = false ∧ State.reset.rspValid = false ∧
  State.reset.cfg.policy = .wrap ∧ State.reset.cfg.enumLo = -9999999 ∧ State.reset.cfg.enumHi = 9999999 ∧
  State.reset.cfg.rangeBound = 32767 ∧ State.reset.cfg.wellFormed = true

/-- The invariant `State.good` holds at reset. That T is in canonical form there rests on the model's choice of an empty
table (log entry 4). -/
def Obligations.ResetStateIsGood : Prop := State.reset.good

/-- R210: a reset clears READY and BUSY, keeps the configuration, and leaves in each entry of T a value nothing
constrains (the opaque `Config.resetEntry`, log entry 5). -/
def Obligations.ResetEventEffect : Prop :=
  ∀ (s : State) (es : List HostEvent), s.host = .reset :: es →
    ∃ t, step s = .next t ∧ t.ready = false ∧ t.busy = false ∧ t.cfg = s.cfg ∧ t.host = es ∧
      ∀ c, t.table.read c = Config.resetEntry s.resets c.toNat

/-- R212: a reset while a command is in flight, by the reset event or by a clock edge with `rst`, ends it with no
response, and READY is 0 after it, whatever the command was. -/
def Obligations.ResetEndsCommandWithoutResponse : Prop :=
  ∀ s t : State, resetComesNext s → step s = .next t →
    t.log = s.log ∧ t.busy = false ∧ t.rspValid = false ∧ t.ready = false

/-! ### The step -/

/-- The invariant `State.good` is kept by every step: T stays canonical, READY = 1 means the table is the built one
(R22), a response is offered only while BUSY = 1 (R71), every response has its meaningless fields 0 (R68). -/
def Obligations.StepKeepsGood : Prop :=
  ∀ s t : State, s.good → step s = .next t → t.good

/-- R32, R70: a step whose command word decodes to `i` runs `i`: offered to an idle block it is accepted, run and its
response delivered; in flight and not run yet it is run and its response delivered; and a word stored by
`withFetchWord` runs in the very next step. The last two clauses are the model's own choices (DESIGN CHOICE): that a command
event met while BUSY = 1 runs and ends the command in flight in that step is log entry 13, how a word comes to be offered
is log entry 2. -/
def Obligations.StepRunsDecodedInstruction : Prop :=
  (∀ (s : State) (r : Request) (es : List HostEvent) (i : Instr), i.wellFormed = true →
    s.host = .command r :: es → s.busy = false → decodeCmd r.cmd = .ok i →
      step s = mapNext deliver (exec i (accept r { s with host := es }))) ∧
  (∀ (s : State) (r : Request) (es : List HostEvent) (i : Instr), i.wellFormed = true →
    s.host = .command r :: es → s.busy = true → s.rspValid = false → decodeCmd s.req.cmd = .ok i →
      step s = mapNext deliver (exec i s)) ∧
  (∀ (s : State) (nbits w : Nat) (i : Instr), decodeTableWord nbits w = some i →
    step (s.withFetchWord nbits w) =
      mapNext deliver (exec i (accept { s.req with cmd := tableWord nbits w } { s with busy := false })))

/-- R180, R192: nothing is fatal. Every step of every state has a next state. -/
def Obligations.EveryStepHasNextState : Prop := ∀ s : State, ∃ t, step s = .next t

/-- R199, R213: with nothing for the host to do an idle block keeps its state. That a block with BUSY = 1 keeps its state
too is the model's own choice (DESIGN CHOICE, log entry 13; the host's events are log entry 2): R221 has the command in
flight end some time, and here no time passes without an event. -/
def Obligations.IdleStepKeepsState : Prop := ∀ s : State, s.host = [] → step s = .next s

/-- R66, R47: a command offered to an idle block, legal or not, gives exactly one response in one step, and the block is
idle again. The statement reads the response off `t.rsp`, which keeps it after the delivery by the model's own choice
(DESIGN CHOICE, log entry 19). -/
def Obligations.TransactionGivesOneResponse : Prop :=
  ∀ (s : State) (r : Request) (es : List HostEvent), s.host = .command r :: es → s.busy = false →
    ∃ t, step s = .next t ∧ t.log = s.log ++ [t.rsp] ∧ t.busy = false ∧ t.rspValid = false ∧ t.host = es ∧
      t.req = r ∧ t.cfg = s.cfg ∧ t.accepted = s.accepted + 1 ∧ t.resets = s.resets

/-- R217: a command offered while BUSY = 1 is not accepted, and it is neither lost nor merged: it stays offered. At the
port level an edge with BUSY = 1 samples nothing, and `cmd_ready` is 0. That the step which meets the offer ends the command
in flight (`t.busy = false`) is the model's own choice (DESIGN CHOICE, log entry 13). -/
def Obligations.BusyBlockKeepsOfferWaiting : Prop :=
  (∀ (s t : State) (r : Request) (es : List HostEvent), s.host = .command r :: es → s.busy = true →
    step s = .next t → t.host = s.host ∧ t.req = s.req ∧ t.accepted = s.accepted ∧ t.busy = false) ∧
  (∀ (p : Pins) (s t : State), s.busy = true → p.rst = false → clockEdge p s = .next t →
    (outputs p.rst s).cmdReady = false ∧ t.req = s.req ∧ t.accepted = s.accepted)

/-- R26, R33: no step, not even a reset, changes the configuration. -/
def Obligations.ConfigurationNeverChanges : Prop := ∀ s t : State, step s = .next t → t.cfg = s.cfg

/-- R218: T changes only by a reset or by an INIT that finds READY = 0, so never by a PACK or an UNPACK, nor by a
command that comes after the first INIT. -/
def Obligations.TableWrittenOnlyByFirstInit : Prop :=
  ∀ s t : State, step s = .next t → t.table ≠ s.table →
    resetComesNext s ∨ (s.ready = false ∧ decodeCmd t.req.cmd = .ok .init ∧ t.ready = true)

/-- R22: READY falls only by a reset and rises only by an INIT, which leaves the built table. -/
def Obligations.ReadyChangesOnlyByInitOrReset : Prop :=
  ∀ s t : State, step s = .next t →
    (s.ready = true → t.ready = false → resetComesNext s) ∧
    (s.ready = false → t.ready = true → decodeCmd t.req.cmd = .ok .init ∧ t.table = builtTable s.cfg)

/-- R68, R66, R148: whatever runs, every response field its status gives no meaning is 0. -/
def Obligations.ResponsesAreDisciplined : Prop :=
  ∀ s t : State, runCommand s = .next t → t.rsp.disciplined

/-! ### INIT and the decode table -/

/-- R124: INIT with READY = 0 completes: T becomes what BuildTable makes of it, READY becomes 1, the response is OK with
every other field 0, and nothing else changes. -/
def Obligations.InitBuildsTableAndSetsReady : Prop :=
  ∀ s : State, s.ready = false → s.table.wf = true →
    exec .init s = .next
      { s with ready := true, table := buildTable s.cfg s.table,
               rsp := { Response.blank with status := .ok }, rspValid := true }

/-- R124: INIT with READY = 1 completes: the response is OK and nothing else changes. -/
def Obligations.InitWhenReadyOnlyAnswersOk : Prop :=
  ∀ s : State, s.ready = true →
    exec .init s = .next { s with rsp := { Response.blank with status := .ok }, rspValid := true }

/-- R120, R221: the closed form the model's INIT uses is, for every configuration, exactly the table that BuildTable's
clearing pass and ascending enumeration leave, whatever the table held before. -/
def Obligations.BuildTableMatchesClosedForm : Prop :=
  ∀ (cfg : Config) (t : Table), t.wf = true → buildTable cfg t = builtTable cfg

/-- R122: after BuildTable under WRAP an entry is the greatest enumerated integer of its residue class, EMPTY when the
class has none; and with the default bounds the two numbers of the rule. -/
def Obligations.WrapTableHoldsGreatestOfClass : Prop :=
  ∀ (cfg : Config) (t : Table) (c : W16), cfg.policy = .wrap → t.wf = true →
    (∀ i : Int, (buildTable cfg t).read c = some i ↔
      cfg.enumLo ≤ i ∧ i ≤ cfg.enumHi ∧ i % 65536 = c.toNat ∧
        ∀ j : Int, cfg.enumLo ≤ j → j ≤ cfg.enumHi → j % 65536 = c.toNat → j ≤ i) ∧
    ((buildTable cfg t).read c = none ↔
      ∀ j : Int, cfg.enumLo ≤ j → j ≤ cfg.enumHi → j % 65536 ≠ c.toNat) ∧
    (cfg.enumLo = -9999999 → cfg.enumHi = 9999999 →
      (buildTable cfg t).read c = some (if c.toNat ≤ 38527 then 9961472 + (c.toNat : Int) else 9895936 + (c.toNat : Int)))

/-- R126: after BuildTable under RANGE_CHECKED, `T[c] = sint16(c)` but for 0x8000, which is EMPTY, and which encode
never produces under this policy. -/
def Obligations.RangeCheckedTableIsSignedCode : Prop :=
  ∀ (cfg : Config), cfg.policy = .rangeChecked → cfg.rangeBound = 32767 →
    (∀ (t : Table) (c : W16), t.wf = true →
      (buildTable cfg t).read c = if c = 0x8000 then none else some c.toInt) ∧
    (∀ v : W64, encodeValue cfg v ≠ .code 0x8000)

/-- R127: the default WRAP table has no EMPTY entry, every entry lies in [9934464, 9999999], the bounds are reached at
38528 and 38527, code 0 decodes to 996.1472, and UNKNOWN_CODE cannot occur. -/
def Obligations.DefaultTableProperties : Prop :=
  ∀ t : Table, t.wf = true →
    (∀ c, ∃ i, (buildTable Config.fpqPkWrap t).read c = some i ∧ 9934464 ≤ i ∧ i ≤ 9999999) ∧
    (buildTable Config.fpqPkWrap t).read 38528 = some 9934464 ∧
    (buildTable Config.fpqPkWrap t).read 38527 = some 9999999 ∧
    (buildTable Config.fpqPkWrap t).read 0 = some 9961472 ∧
    decodeCode (buildTable Config.fpqPkWrap t) 0 = .value 9961472 0x408F212D77318FC5 ∧
    (∀ (rx : W8) (s u : State), s.table = buildTable Config.fpqPkWrap t → exec (.unpack rx) s = .next u →
      u.rsp.status ≠ .unknownCode)

/-! ### Encode -/

/-- R12, R105: the scaled integer is the product rounded to the nearest integer, ties away from zero, on exact
rationals; and RHA(-0.0) = 0. -/
def Obligations.ScaledIntegerRoundsHalfAway : Prop :=
  (∀ b : W64, Binary64.isFinite b = true → Binary64.rha b = rhaRat (Binary64.val b)) ∧
  Binary64.rha 0x8000000000000000 = 0 ∧
  (∀ v : W64, Binary64.isFinite (scaledProduct v) = true → scaledInteger v = rhaRat (Binary64.val (scaledProduct v)))

/-- R11: a finite RNE64 result is the binary64 value nearest to the exact rational, and on a tie the one with an even
fraction. -/
def Obligations.Rne64IsNearestEven : Prop :=
  ∀ (neg : Bool) (num den : Nat) (b : W64), 0 < den → Binary64.isFinite (Binary64.rne64 neg num den) = true →
    Binary64.isFinite b = true →
      |Binary64.val (Binary64.rne64 neg num den) - signedRat neg num den| ≤ |Binary64.val b - signedRat neg num den| ∧
      (|Binary64.val (Binary64.rne64 neg num den) - signedRat neg num den| = |Binary64.val b - signedRat neg num den| →
        Binary64.val b ≠ Binary64.val (Binary64.rne64 neg num den) →
        Binary64.fraction (Binary64.rne64 neg num den) % 2 = 0)

/-- R11: RNE64 keeps the sign, gives no NaN, and gives an infinity exactly when the magnitude is at least
`2^1024 - 2^970`, half a unit above the largest finite value. -/
def Obligations.Rne64OverflowsToInfinity : Prop :=
  ∀ (neg : Bool) (num den : Nat), 0 < den →
    Binary64.sign (Binary64.rne64 neg num den) = neg ∧
    Binary64.isNaN (Binary64.rne64 neg num den) = false ∧
    (Binary64.isInf (Binary64.rne64 neg num den) = true ↔ (2 ^ 1024 - 2 ^ 970) * den ≤ num)

/-- R10, R11: a finite binary64 value is representable, so rounding it gives its own pattern back, the sign of a zero
included. -/
def Obligations.MultiplyByOneIsIdentity : Prop :=
  ∀ b : W64, Binary64.isFinite b = true → Binary64.mulNat b 1 = b

/-- R103, R104: encode is INVALID exactly for a NaN, an infinity, or a value whose product by 10000 rounds past the
largest finite binary64, under either policy. -/
def Obligations.EncodeInvalidExactly : Prop :=
  ∀ (cfg : Config) (v : W64), encodeValue cfg v = .invalid ↔
    (Binary64.isFinite v = false ∨ (2 : ℚ) ^ 1024 - 2 ^ 970 ≤ |Binary64.val v| * 10000)

/-- R106, R112: under WRAP a finite value with a finite product always gets the code `n mod 65536`, and encode never
answers UNREP. -/
def Obligations.WrapTruncatesToLow16Bits : Prop :=
  ∀ (cfg : Config) (v : W64), cfg.policy = .wrap →
    (Binary64.isFinite v = true → Binary64.isFinite (scaledProduct v) = true →
      ∃ c, encodeValue cfg v = .code c ∧ (c.toNat : Int) = scaledInteger v % 65536) ∧
    encodeValue cfg v ≠ .unrep

/-- R107: under RANGE_CHECKED a scaled value beyond the bound is rejected and any other gets its code; nothing
saturates. -/
def Obligations.RangeCheckRejectsBeyondBound : Prop :=
  ∀ (cfg : Config) (v : W64), cfg.policy = .rangeChecked → Binary64.isFinite v = true →
    Binary64.isFinite (scaledProduct v) = true →
      ((cfg.rangeBound : Int) < |scaledInteger v| → encodeValue cfg v = .unrep) ∧
      (|scaledInteger v| ≤ cfg.rangeBound →
        ∃ c, encodeValue cfg v = .code c ∧ (c.toNat : Int) = scaledInteger v % 65536)

/-- R110: under WRAP two finite values get the same code exactly when their scaled values agree modulo 65536; and
-32768 has the code 0x8000, which no scaled value of magnitude at most 32767 has. -/
def Obligations.AliasedValuesShareCode : Prop :=
  (∀ (cfg : Config) (v w : W64), cfg.policy = .wrap → Binary64.isFinite v = true →
    Binary64.isFinite (scaledProduct v) = true → Binary64.isFinite w = true → Binary64.isFinite (scaledProduct w) = true →
      (encodeValue cfg v = encodeValue cfg w ↔ scaledInteger v % 65536 = scaledInteger w % 65536)) ∧
  codeOf (-32768) = 0x8000 ∧ ∀ n : Int, |n| ≤ 32767 → codeOf n ≠ 0x8000

/-- R111: a finite product of magnitude 2^68 or more is a multiple of 2^16: its code is 0 under WRAP, and under
RANGE_CHECKED it is rejected. -/
def Obligations.LargeProductsHaveCodeZero : Prop :=
  ∀ (cfg : Config) (v : W64), Binary64.isFinite v = true → Binary64.isFinite (scaledProduct v) = true →
    (2 : ℚ) ^ 68 ≤ |Binary64.val (scaledProduct v)| →
      (cfg.policy = .wrap → encodeValue cfg v = .code 0) ∧
      (cfg.policy = .rangeChecked → cfg.rangeBound = 32767 → encodeValue cfg v = .unrep)

/-- R123: for every enumerated integer the binary64 nearest to `i / 10000` scales back to `i` and encodes to
`i mod 65536`, the code the enumeration records for it. -/
def Obligations.EnumeratedValuesEncodeToTheirCode : Prop :=
  ∀ (cfg : Config) (i : Int), cfg.policy = .wrap → -9999999 ≤ i → i ≤ 9999999 →
    scaledInteger (Binary64.divNat i 10000) = i ∧
    ∃ c, encodeValue cfg (Binary64.divNat i 10000) = .code c ∧ (c.toNat : Int) = i % 65536

/-! ### Decode and round trips -/

/-- R131: under any well-formed configuration, an entry of the built table is exactly what its 32-bit `S` field reads as in
two's complement, its `V` field is finite, and 0 decodes to +0.0. For WRAP well-formed means the bounds of R7; the limit on
RANGE_BOUND, which the RANGE_CHECKED case rests on, is the model's own (DEDUCED, log entry 9). -/
def Obligations.DecodedFieldsHoldEntry : Prop :=
  ∀ (cfg : Config) (c : W16) (e : Int), cfg.wellFormed = true → (builtTable cfg).read c = some e →
    (decodeCode (builtTable cfg) c).sField.toInt = e ∧
    Binary64.isFinite (decodeCode (builtTable cfg) c).vField = true ∧
    (e = 0 → (decodeCode (builtTable cfg) c).vField = 0)

/-- R132: under WRAP decode returns the entry of the code of `n`, which is `n` exactly when `n` is the greatest
enumerated integer of its class; with the default bounds, exactly when `9934464 <= n <= 9999999`. -/
def Obligations.WrapRoundTripExactlyOnTopClass : Prop :=
  ∀ (cfg : Config) (v : W64) (c : W16), cfg.policy = .wrap → Binary64.isFinite v = true → encodeValue cfg v = .code c →
    ((builtTable cfg).read c = some (scaledInteger v) ↔
      cfg.enumLo ≤ scaledInteger v ∧ scaledInteger v ≤ cfg.enumHi ∧
        ∀ j : Int, cfg.enumLo ≤ j → j ≤ cfg.enumHi → j % 65536 = scaledInteger v % 65536 → j ≤ scaledInteger v) ∧
    (cfg.enumLo = -9999999 → cfg.enumHi = 9999999 →
      ∃ e, decodeCode (builtTable cfg) c = .value e (Binary64.divNat e 10000) ∧
        (e = scaledInteger v ↔ 9934464 ≤ scaledInteger v ∧ scaledInteger v ≤ 9999999))

/-- R133: under RANGE_CHECKED the round trip is exact, bit for bit, on every `n / 10000` with `|n| <= 32767`. -/
def Obligations.RangeCheckedRoundTripIsExact : Prop :=
  ∀ (cfg : Config) (n : Int), cfg.policy = .rangeChecked → cfg.rangeBound = 32767 → -32767 ≤ n → n ≤ 32767 →
    ∃ c, encodeValue cfg (Binary64.divNat n 10000) = .code c ∧ (c.toNat : Int) = n % 65536 ∧
      decodeCode (builtTable cfg) c = .value n (Binary64.divNat n 10000)

/-! ### The packet word -/

/-- R141, R142: the ranges of the composite and of the packet word. -/
def Obligations.PacketLayoutFields : Prop :=
  ∀ (addr : W8) (c : Lanes W16),
    (composite c).extractLsb' 32 16 = c.x ∧ (composite c).extractLsb' 16 16 = c.y ∧
    (composite c).extractLsb' 0 16 = c.z ∧ (composite c).extractLsb' 48 16 = 0 ∧
    packetWord addr (composite c) = (0#8 ++ c.x ++ c.y ++ c.z ++ addr : BitVec (8 + 16 + 16 + 16 + 8)) ∧
    (packetWord addr (composite c)).toNat =
      addr.toNat + 2 ^ 8 * c.z.toNat + 2 ^ 24 * c.y.toNat + 2 ^ 40 * c.x.toNat

/-- R143: what the extraction reads; that bits 63:56 have no effect; and that extracting gives back the codes that built
a packet word. -/
def Obligations.PacketExtractionIgnoresTopByte : Prop :=
  (∀ w : W64, (packetAddr w).toNat = w.toNat % 2 ^ 8 ∧ (packetCodes w).x.toNat = w.toNat / 2 ^ 40 % 2 ^ 16 ∧
    (packetCodes w).y.toNat = w.toNat / 2 ^ 24 % 2 ^ 16 ∧ (packetCodes w).z.toNat = w.toNat / 2 ^ 8 % 2 ^ 16) ∧
  (∀ w w' : W64, w.extractLsb' 0 56 = w'.extractLsb' 0 56 →
    packetAddr w = packetAddr w' ∧ packetCodes w = packetCodes w') ∧
  (∀ (addr : W8) (c : Lanes W16), packetAddr (packetWord addr (composite c)) = addr ∧
    packetCodes (packetWord addr (composite c)) = c)

/-- R42, R43: the bytes of a packet word, byte 0 the address; the 16-bit reads of the byte pairs; and that the byte view
loses nothing. -/
def Obligations.PacketByteView : Prop :=
  (∀ (addr : W8) (c : Lanes W16),
    packetBytes (packetWord addr (composite c)) =
      [addr, c.z.extractLsb' 0 8, c.z.extractLsb' 8 8, c.y.extractLsb' 0 8, c.y.extractLsb' 8 8,
       c.x.extractLsb' 0 8, c.x.extractLsb' 8 8, 0] ∧
    packetByte (packetWord addr (composite c)) 2 ++ packetByte (packetWord addr (composite c)) 1 = c.z ∧
    packetByte (packetWord addr (composite c)) 4 ++ packetByte (packetWord addr (composite c)) 3 = c.y ∧
    packetByte (packetWord addr (composite c)) 6 ++ packetByte (packetWord addr (composite c)) 5 = c.x) ∧
  (∀ (w : W64) (k : Nat), (packetByte w k).toNat = w.toNat / 2 ^ (8 * k) % 256) ∧
  ∀ w : W64, packetOfBytes (packetBytes w) = w

/-! ### PACK -/

/-- R186: while READY = 0 a PACK and an UNPACK are refused with NOT_READY, mask 0, whatever the operands and the
addresses are, and nothing else changes. -/
def Obligations.NotReadyRefusesPackAndUnpack : Prop :=
  ∀ (a : W8) (s : State), s.ready = false →
    exec (.pack a) s = .next { s with rsp := { Response.blank with status := .notReady }, rspValid := true } ∧
    exec (.unpack a) s = .next { s with rsp := { Response.blank with status := .notReady }, rspValid := true }

/-- R145, R142: PACK with READY = 1 and three encodable values completes with OK and the packet word, top byte 0, codes
X, Y and Z, then the tag; nothing else changes. -/
def Obligations.PackComposesPacket : Prop :=
  ∀ (tag : W8) (s : State) (cx cy cz : W16), s.ready = true → encodeValue s.cfg s.req.opx = .code cx →
    encodeValue s.cfg s.req.opy = .code cy → encodeValue s.cfg s.req.opz = .code cz →
      exec (.pack tag) s = .next
        { s with rsp := { Response.blank with
                            status := .ok
                            pkt := (0#8 ++ cx ++ cy ++ cz ++ tag : BitVec (8 + 16 + 16 + 16 + 8)) },
                 rspValid := true }

/-- R184, R190: PACK answers INVALID_OPERAND when some lane is INVALID, LMASK marks exactly the INVALID lanes, no packet
is produced and nothing else changes. -/
def Obligations.PackMarksInvalidLanes : Prop :=
  ∀ (tag : W8) (s : State), s.ready = true →
    (encodeValue s.cfg s.req.opx = .invalid ∨ encodeValue s.cfg s.req.opy = .invalid ∨
      encodeValue s.cfg s.req.opz = .invalid) →
    ∃ m : BitVec 3,
      exec (.pack tag) s = .next
        { s with rsp := { Response.blank with status := .invalidOperand, lmask := m }, rspValid := true } ∧
      (m[2] = true ↔ encodeValue s.cfg s.req.opx = .invalid) ∧
      (m[1] = true ↔ encodeValue s.cfg s.req.opy = .invalid) ∧
      (m[0] = true ↔ encodeValue s.cfg s.req.opz = .invalid)

/-- R185, R189, R190: PACK answers UNREPRESENTABLE when no lane is INVALID and some lane is UNREP, which takes
RANGE_CHECKED; LMASK marks exactly the UNREP lanes, no packet is produced and nothing else changes. -/
def Obligations.PackMarksUnrepresentableLanes : Prop :=
  ∀ (tag : W8) (s : State), s.ready = true → encodeValue s.cfg s.req.opx ≠ .invalid →
    encodeValue s.cfg s.req.opy ≠ .invalid → encodeValue s.cfg s.req.opz ≠ .invalid →
    (encodeValue s.cfg s.req.opx = .unrep ∨ encodeValue s.cfg s.req.opy = .unrep ∨
      encodeValue s.cfg s.req.opz = .unrep) →
    s.cfg.policy = .rangeChecked ∧
    ∃ m : BitVec 3,
      exec (.pack tag) s = .next
        { s with rsp := { Response.blank with status := .unrepresentable, lmask := m }, rspValid := true } ∧
      (m[2] = true ↔ encodeValue s.cfg s.req.opx = .unrep) ∧
      (m[1] = true ↔ encodeValue s.cfg s.req.opy = .unrep) ∧
      (m[0] = true ↔ encodeValue s.cfg s.req.opz = .unrep)

/-- R148: the packet word of an OK PACK has the tag in its low byte and 0 in its top byte. -/
def Obligations.PackedTopByteIsZero : Prop :=
  ∀ (tag : W8) (s t : State), exec (.pack tag) s = .next t → t.rsp.status = .ok →
    t.rsp.pkt.extractLsb' 0 8 = tag ∧ t.rsp.pkt.extractLsb' 56 8 = 0

/-- R147: changing one value operand of a successful PACK changes only that lane's range of the packet word, and an
UNPACK of the two packet words gives the other two lanes the same values. -/
def Obligations.LanesAreIndependent : Prop :=
  ∀ (tag rx : W8) (s t t' u v v' : State) (a : W64),
    exec (.pack tag) s = .next t → t.rsp.status = .ok → t'.rsp.status = .ok →
    exec (.unpack rx) { u with req := { u.req with pktIn := t.rsp.pkt } } = .next v →
    exec (.unpack rx) { u with req := { u.req with pktIn := t'.rsp.pkt } } = .next v' →
      (exec (.pack tag) { s with req := { s.req with opx := a } } = .next t' →
        (∀ i, i < 40 ∨ 56 ≤ i → t'.rsp.pkt.getLsbD i = t.rsp.pkt.getLsbD i) ∧
        v'.rsp.vy = v.rsp.vy ∧ v'.rsp.sy = v.rsp.sy ∧ v'.rsp.vz = v.rsp.vz ∧ v'.rsp.sz = v.rsp.sz) ∧
      (exec (.pack tag) { s with req := { s.req with opy := a } } = .next t' →
        (∀ i, i < 24 ∨ 40 ≤ i → t'.rsp.pkt.getLsbD i = t.rsp.pkt.getLsbD i) ∧
        v'.rsp.vx = v.rsp.vx ∧ v'.rsp.sx = v.rsp.sx ∧ v'.rsp.vz = v.rsp.vz ∧ v'.rsp.sz = v.rsp.sz) ∧
      (exec (.pack tag) { s with req := { s.req with opz := a } } = .next t' →
        (∀ i, i < 8 ∨ 24 ≤ i → t'.rsp.pkt.getLsbD i = t.rsp.pkt.getLsbD i) ∧
        v'.rsp.vx = v.rsp.vx ∧ v'.rsp.sx = v.rsp.sx ∧ v'.rsp.vy = v.rsp.vy ∧ v'.rsp.sy = v.rsp.sy)

/-- R145: PACK reads no table entry: with another table it does the same. -/
def Obligations.PackReadsNoTableEntry : Prop :=
  ∀ (tag : W8) (s : State) (u : Table),
    exec (.pack tag) { s with table := u } = mapNext (fun t => { t with table := u }) (exec (.pack tag) s)

/-- R64: the ports a command ignores do not affect it: INIT ignores all four, PACK ignores PKT_IN, UNPACK ignores OPX,
OPY and OPZ. -/
def Obligations.IgnoredPortsHaveNoEffect : Prop :=
  ∀ (a : W8) (s : State) (q : Request),
    exec .init { s with req := q } = mapNext (fun t => { t with req := q }) (exec .init s) ∧
    (q.opx = s.req.opx → q.opy = s.req.opy → q.opz = s.req.opz →
      exec (.pack a) { s with req := q } = mapNext (fun t => { t with req := q }) (exec (.pack a) s)) ∧
    (q.pktIn = s.req.pktIn →
      exec (.unpack a) { s with req := q } = mapNext (fun t => { t with req := q }) (exec (.unpack a) s))

/-- R48, R145, R146: PACK and UNPACK write nothing but their response: READY, every entry of T, BUSY, the
configuration, the sampled ports and the host's side are unchanged. -/
def Obligations.PackAndUnpackWriteOnlyResponse : Prop :=
  ∀ (a : W8) (s t : State), exec (.pack a) s = .next t ∨ exec (.unpack a) s = .next t →
    keepsAllButResponse s t ∧ t.rspValid = true

/-- R48: PACK and UNPACK are idempotent: run again on the state they leave, they leave it as it is. -/
def Obligations.PackAndUnpackAreIdempotent : Prop :=
  ∀ (a : W8) (s t : State),
    (exec (.pack a) s = .next t → exec (.pack a) t = .next t) ∧
    (exec (.unpack a) s = .next t → exec (.unpack a) t = .next t)

/-! ### UNPACK -/

/-- R146, R131: UNPACK with READY = 1, a matching address and three entries completes with ACCEPTED, each lane's entry in
its `S` field and its quotient by 10000 in its `V` field; nothing else changes. -/
def Obligations.UnpackDecodesMatchingPacket : Prop :=
  ∀ (rx : W8) (s : State) (ex ey ez : Int), s.ready = true → s.req.pktIn.extractLsb' 0 8 = rx →
    s.table.read (s.req.pktIn.extractLsb' 40 16) = some ex → s.table.read (s.req.pktIn.extractLsb' 24 16) = some ey →
    s.table.read (s.req.pktIn.extractLsb' 8 16) = some ez →
      exec (.unpack rx) s = .next
        { s with rsp := { Response.blank with
                            status := .accepted
                            vx := Binary64.divNat ex 10000, vy := Binary64.divNat ey 10000,
                            vz := Binary64.divNat ez 10000,
                            sx := BitVec.ofInt 32 ex, sy := BitVec.ofInt 32 ey, sz := BitVec.ofInt 32 ez },
                 rspValid := true }

/-- R134, R146, R187: UNPACK with READY = 1, a matching address and some EMPTY entry completes with UNKNOWN_CODE; LMASK
marks exactly the lanes without an entry, whose V and S are 0; the other lanes carry their decoded values. -/
def Obligations.UnpackMarksUnknownLanes : Prop :=
  ∀ (rx : W8) (s : State) (ox oy oz : Option Int), s.ready = true → s.req.pktIn.extractLsb' 0 8 = rx →
    s.table.read (s.req.pktIn.extractLsb' 40 16) = ox → s.table.read (s.req.pktIn.extractLsb' 24 16) = oy →
    s.table.read (s.req.pktIn.extractLsb' 8 16) = oz → (ox = none ∨ oy = none ∨ oz = none) →
    ∃ m : BitVec 3,
      exec (.unpack rx) s = .next
        { s with rsp := { Response.blank with
                            status := .unknownCode
                            lmask := m
                            vx := (ox.map fun e => Binary64.divNat e 10000).getD 0,
                            vy := (oy.map fun e => Binary64.divNat e 10000).getD 0,
                            vz := (oz.map fun e => Binary64.divNat e 10000).getD 0,
                            sx := (ox.map (BitVec.ofInt 32)).getD 0, sy := (oy.map (BitVec.ofInt 32)).getD 0,
                            sz := (oz.map (BitVec.ofInt 32)).getD 0 },
                 rspValid := true } ∧
      (m[2] = true ↔ ox = none) ∧ (m[1] = true ↔ oy = none) ∧ (m[0] = true ↔ oz = none)

/-- R188: UNPACK with READY = 1 and another address completes with REJECTED, mask 0 and every value field 0, and reads
no table entry: the response is the same for every table. -/
def Obligations.UnpackRejectsOtherAddress : Prop :=
  ∀ (rx : W8) (s : State) (u : Table), s.ready = true → s.req.pktIn.extractLsb' 0 8 ≠ rx →
    exec (.unpack rx) { s with table := u } = .next
      { s with table := u, rsp := { Response.blank with status := .rejected }, rspValid := true }

/-- R149, R144: with READY = 1 an UNPACK returns values exactly when the packet's low byte equals the receiver's
address; otherwise it answers REJECTED and reads no table entry. -/
def Obligations.UnpackFiltersByAddress : Prop :=
  ∀ (a : W8) (s t : State), s.ready = true → exec (.unpack a) s = .next t →
    ((t.rsp.status = .accepted ∨ t.rsp.status = .unknownCode) ↔ s.req.pktIn.toNat % 256 = a.toNat) ∧
    (s.req.pktIn.toNat % 256 ≠ a.toNat → t.rsp.status = .rejected ∧
      ∀ (u : Table) (t' : State), exec (.unpack a) { s with table := u } = .next t' → t'.rsp = t.rsp)

/-! ### The port level -/

/-- R71, R72, R221: at the port level a command accepted at one edge, run after its latency, held while the host does
not take the response and then taken, leaves the state that the atomic transaction leaves, but for the count of cycles,
whatever the pins of the other edges offer. The latencies are free values (log entry 10); which edges count towards one is
the model's reading (DEDUCED, log entry 18), and so is what `rsp` holds after the delivery (DESIGN CHOICE, log entry 19). -/
def Obligations.PortLevelRefinesTransaction : Prop :=
  ∀ (s : State) (r : Request) (acceptPins takePins : Pins) (waits holds : List Pins) (es : List HostEvent),
    s.busy = false → acceptPins.rst = false → acceptPins.cmdValid = true → acceptPins.req = r →
    (∀ p ∈ waits, p.rst = false) → waits.length = latency (accept r s) →
    (∀ p ∈ holds, p.rst = false ∧ p.rspReady = false) → takePins.rst = false → takePins.rspReady = true →
    ∃ t, step { s with host := .command r :: es } = .next t ∧
      Sys2Proof.core.run (waits.length + holds.length + 2)
          ({ s with host := (acceptPins :: (waits ++ (holds ++ [takePins]))).map HostEvent.edge ++ es } : State) =
        .next ({ t with elapsed := latency (accept r s) } : State)

/-- R71, R211: while a response is offered and the host does not take it, an edge without `rst` changes nothing and the
response stays on the outputs; with `rst`, `cmd_ready` and `rsp_valid` are 0; an idle block without `rst` is ready. -/
def Obligations.OfferedResponseStaysStable : Prop :=
  (∀ (p : Pins) (s : State), s.busy = true → s.rspValid = true → p.rst = false → p.rspReady = false →
    clockEdge p s = .next s ∧ outputs p.rst s = { cmdReady := false, rspValid := true, rsp := s.rsp }) ∧
  (∀ s : State, (outputs true s).cmdReady = false ∧ (outputs true s).rspValid = false) ∧
  (∀ s : State, (outputs false s).cmdReady = !s.busy)

/-- READY and T change at no edge that does not also offer the response: that is the model's own choice of when a build takes
effect (DEDUCED, log entry 17), since R31 lets entries be written earlier as long as nothing observes them. And R125, R47: on
a good state INIT leaves READY = 1 and the complete table with its OK, so the next command finds both. -/
def Obligations.BuildInvisibleUntilResponse : Prop :=
  (∀ (p : Pins) (s t : State), p.rst = false → clockEdge p s = .next t → t.rspValid = false →
    t.ready = s.ready ∧ t.table = s.table) ∧
  (∀ s t : State, s.good → exec .init s = .next t → t.rsp.status = .ok ∧ t.ready = true ∧
    t.table = builtTable s.cfg)

/-! ### Between responses -/

/-- R27: the outcome of a command holds no state after its delivery, and no later command reads it: whatever `rsp` holds, the
next transaction ends the same, legal or not, and so does the run of a command in flight. So what the model keeps in `rsp`
while `rsp_valid` is 0 (DESIGN CHOICE, log entry 19) reaches no later response and no other state. -/
def Obligations.OldResponseReachesNoLaterCommand : Prop :=
  (∀ (s : State) (r : Request) (old : Response), transact r { s with rsp := old } = transact r s) ∧
  (∀ (s : State) (old : Response), runCommand { s with rsp := old } = runCommand s)
end

