-- ==== Sys2Proof/Laws/Binary64.lean ====
section
/-! SUPPORT. The laws of binary64 patterns and of the rounding functions: what a pattern made from sign and magnitude
reads as, how far a rounded quotient can be off, and where the floor of the logarithm lies. -/

namespace Sys2Proof.Machine.Binary64

/-! ### Fields of a pattern -/

theorem biasedExp_eq (b : W64) : biasedExp b = b.toNat / 2 ^ 52 % 2 ^ 11 := by
  simp [biasedExp, BitVec.extractLsb'_toNat, Nat.shiftRight_eq_div_pow]

theorem fraction_eq (b : W64) : fraction b = b.toNat % 2 ^ 52 := by
  simp [fraction, BitVec.extractLsb'_toNat]

theorem sign_eq (b : W64) : sign b = decide (2 ^ 63 ≤ b.toNat) := by
  have : sign b = b.msb := by simp [sign, BitVec.msb_eq_getLsbD_last]
  rw [this, BitVec.msb_eq_decide]

theorem biasedExp_lt (b : W64) : biasedExp b < 2048 := by rw [biasedExp_eq]; omega

theorem fraction_lt (b : W64) : fraction b < 2 ^ 52 := by rw [fraction_eq]; omega

theorem isFinite_iff (b : W64) : isFinite b = true ↔ biasedExp b ≠ 2047 := by simp [isFinite]

theorem toNat_withSign {neg : Bool} {mag : Nat} (h : mag < 2 ^ 63) :
    (withSign neg mag).toNat = (if neg then 2 ^ 63 + mag else mag) := by
  unfold withSign
  rw [BitVec.toNat_ofNat, Nat.mod_eq_of_lt]
  split <;> omega

theorem sign_withSign {neg : Bool} {mag : Nat} (h : mag < 2 ^ 63) : sign (withSign neg mag) = neg := by
  rw [sign_eq, toNat_withSign h]
  cases neg
  · simp; omega
  · simp

theorem biasedExp_withSign {neg : Bool} {mag : Nat} (h : mag < 2 ^ 63) :
    biasedExp (withSign neg mag) = mag / 2 ^ 52 := by
  rw [biasedExp_eq, toNat_withSign h]
  cases neg
  · simp; omega
  · simp; omega

theorem fraction_withSign {neg : Bool} {mag : Nat} (h : mag < 2 ^ 63) :
    fraction (withSign neg mag) = mag % 2 ^ 52 := by
  rw [fraction_eq, toNat_withSign h]
  cases neg
  · simp
  · simp; omega

/-- A pattern is made of its sign and its low 63 bits. -/
theorem withSign_self (b : W64) : withSign (sign b) (biasedExp b * 2 ^ 52 + fraction b) = b := by
  have h1 := biasedExp_lt b
  have h2 := fraction_lt b
  apply BitVec.eq_of_toNat_eq
  rw [toNat_withSign (by omega), sign_eq, biasedExp_eq, fraction_eq]
  have := b.isLt
  by_cases h : 2 ^ 63 ≤ b.toNat <;> simp only [h, decide_true, decide_false, if_true, Bool.false_eq_true, if_false] <;>
    omega

/-- The significand of a pattern is below `2^53`. -/
theorem significand_lt (b : W64) : significand b < 2 ^ 53 := by
  have := fraction_lt b
  unfold significand
  split <;> omega

/-! ### The pattern of a finite result (R11) -/

/-- What `finiteMag` needs: a rounded significand and an exponent that belong together. -/
def FitsFormat (M : Nat) (e : Int) : Prop :=
  M < 2 ^ 53 ∧ -1022 ≤ e ∧ e ≤ 1023 ∧ (M < 2 ^ 52 → e = -1022)

theorem finiteMag_lt {M : Nat} {e : Int} (h : FitsFormat M e) : finiteMag M e < infMag := by
  obtain ⟨h1, h2, h3, h4⟩ := h
  unfold finiteMag infMag
  split <;> omega

/-- The fields of a finite result: the significand and the unit it was made from. -/
theorem fields_finiteMag {M : Nat} {e : Int} (neg : Bool) (h : FitsFormat M e) :
    significand (withSign neg (finiteMag M e)) = M ∧ unitExp (withSign neg (finiteMag M e)) = e - 52 ∧
    sign (withSign neg (finiteMag M e)) = neg ∧ isFinite (withSign neg (finiteMag M e)) = true := by
  have hlt := finiteMag_lt h
  have hlt' : finiteMag M e < 2 ^ 63 := by unfold infMag at hlt; omega
  obtain ⟨h1, h2, h3, h4⟩ := h
  have hb := biasedExp_withSign (neg := neg) hlt'
  have hf := fraction_withSign (neg := neg) hlt'
  refine ⟨?_, ?_, sign_withSign hlt', ?_⟩
  · unfold significand
    rw [hb, hf]
    unfold finiteMag
    by_cases hM : 2 ^ 52 ≤ M
    · simp only [if_pos hM]; rw [if_neg (by omega)]; omega
    · simp only [if_neg hM]; rw [if_pos (by omega)]; omega
  · unfold unitExp
    rw [hb]
    unfold finiteMag
    by_cases hM : 2 ^ 52 ≤ M
    · simp only [if_pos hM]; omega
    · simp only [if_neg hM]
      have := h4 (by omega)
      omega
  · rw [isFinite_iff, hb]
    unfold infMag at hlt
    omega

/-- The value of a finite result. -/
theorem val_finiteMag {M : Nat} {e : Int} (neg : Bool) (h : FitsFormat M e) :
    val (withSign neg (finiteMag M e)) = (if neg then -1 else 1) * (M : ℚ) * 2 ^ (e - 52) := by
  obtain ⟨h1, h2, h3, -⟩ := fields_finiteMag neg h
  rw [val, h1, h2, h3]

/-! ### Rounding a quotient -/

/-- A quotient rounded to nearest even is off by at most half a unit, and by exactly half only when it is even. -/
theorem rneDiv_spec (n : Nat) {d : Nat} (hd : 0 < d) :
    2 * (rneDiv n d * d) ≤ 2 * n + d ∧ 2 * n ≤ 2 * (rneDiv n d * d) + d ∧
    ((2 * (rneDiv n d * d) = 2 * n + d ∨ 2 * n = 2 * (rneDiv n d * d) + d) → rneDiv n d % 2 = 0) := by
  have h := Nat.div_add_mod n d
  have hr := Nat.mod_lt n hd
  unfold rneDiv
  simp only
  generalize hq : n / d = q at *
  generalize n % d = r at *
  have e1 : (q + 1) * d = d * q + d := by ring
  have e0 : q * d = d * q := by ring
  split
  · rw [e0]; omega
  · split
    · rw [e1]; omega
    · split
      · rw [e0]; omega
      · rw [e1]; omega

/-! ### The floor of the logarithm -/

/-- `floorLog2` is the exponent of the binade the fraction lies in. -/
theorem floorLog2_spec {num den : Nat} (hn : 0 < num) (hd : 0 < den) :
    (2 : ℚ) ^ floorLog2 num den ≤ (num : ℚ) / den ∧ (num : ℚ) / den < 2 ^ (floorLog2 num den + 1) := by
  have hn1 : 2 ^ num.log2 ≤ num := Nat.log2_self_le (by omega)
  have hn2 : num < 2 ^ (num.log2 + 1) := Nat.lt_log2_self
  have hd1 : 2 ^ den.log2 ≤ den := Nat.log2_self_le (by omega)
  have hd2 : den < 2 ^ (den.log2 + 1) := Nat.lt_log2_self
  have qd : (0 : ℚ) < den := by exact_mod_cast hd
  have qn1 : (2 : ℚ) ^ (num.log2 : ℤ) ≤ num := by exact_mod_cast hn1
  have qn2 : (num : ℚ) < 2 ^ ((num.log2 : ℤ) + 1) := by exact_mod_cast hn2
  have qd1 : (2 : ℚ) ^ (den.log2 : ℤ) ≤ den := by exact_mod_cast hd1
  have qd2 : (den : ℚ) < 2 ^ ((den.log2 : ℤ) + 1) := by exact_mod_cast hd2
  unfold floorLog2
  simp only
  generalize hk : (num.log2 : ℤ) - den.log2 = k
  have hnum : (num.log2 : ℤ) = den.log2 + k := by omega
  rw [hnum] at qn1 qn2
  have two : (2 : ℚ) ≠ 0 := by norm_num
  -- the comparison in the definition is the comparison of den * 2^k with num
  have hcmp : den * 2 ^ k.toNat ≤ num * 2 ^ (-k).toNat ↔ (den : ℚ) * 2 ^ k ≤ num := by
    rcases le_or_gt 0 k with h | h
    · obtain ⟨m, rfl⟩ := Int.eq_ofNat_of_zero_le h
      simp only [Int.toNat_natCast, zpow_natCast, Int.toNat_neg_natCast, pow_zero, mul_one]
      exact_mod_cast Iff.rfl
    · obtain ⟨m, hm⟩ := Int.eq_ofNat_of_zero_le (show 0 ≤ -k by omega)
      have hk' : k = -(m : ℤ) := by omega
      subst hk'
      simp only [Int.toNat_neg_natCast, pow_zero, mul_one, neg_neg, Int.toNat_natCast, zpow_neg, zpow_natCast]
      rw [← div_eq_mul_inv, div_le_iff₀ (by positivity)]
      exact_mod_cast Iff.rfl
  by_cases h : den * 2 ^ k.toNat ≤ num * 2 ^ (-k).toNat
  · rw [if_pos h]
    have h' := hcmp.mp h
    refine ⟨by rw [le_div_iff₀ qd, mul_comm]; exact h', ?_⟩
    rw [div_lt_iff₀ qd]
    calc (num : ℚ) < 2 ^ ((den.log2 : ℤ) + k + 1) := qn2
      _ = 2 ^ (k + 1) * 2 ^ (den.log2 : ℤ) := by rw [← zpow_add₀ two]; ring_nf
      _ ≤ 2 ^ (k + 1) * den := by gcongr
  · rw [if_neg h]
    have h' : (num : ℚ) < den * 2 ^ k := not_le.mp fun hh => h (hcmp.mpr hh)
    refine ⟨?_, ?_⟩
    · rw [le_div_iff₀ qd]
      calc (2 : ℚ) ^ (k - 1) * den ≤ 2 ^ (k - 1) * 2 ^ ((den.log2 : ℤ) + 1) := by gcongr
        _ = 2 ^ ((den.log2 : ℤ) + k) := by rw [← zpow_add₀ two]; ring_nf
        _ ≤ num := qn1
    · rw [div_lt_iff₀ qd, sub_add_cancel, mul_comm]
      exact h'

/-! ### RNE64, said once -/

/-- RNE64 on a zero magnitude is the zero of the given sign. -/
theorem rne64_zero (neg : Bool) (den : Nat) : rne64 neg 0 den = withSign neg 0 := by simp [rne64]

/-- The scaled quotient of R11: in units of `2^(e-52)` the fraction is `num * 2^(52-e) / (den * 2^(e-52))`. -/
theorem scaled_div (num : Nat) {den : Nat} (hd : 0 < den) (e : Int) :
    ((num * 2 ^ (52 - e).toNat : Nat) : ℚ) / ((den * 2 ^ (e - 52).toNat : Nat) : ℚ) =
      (num : ℚ) / den / 2 ^ (e - 52) := by
  have qd : (den : ℚ) ≠ 0 := by exact_mod_cast hd.ne'
  rcases le_or_gt 52 e with h | h
  · obtain ⟨m, hm⟩ := Int.eq_ofNat_of_zero_le (show 0 ≤ e - 52 by omega)
    have h1 : (52 - e).toNat = 0 := by omega
    have h2 : (e - 52).toNat = m := by omega
    rw [h1, h2, hm]
    push_cast
    rw [zpow_natCast]
    field_simp
  · obtain ⟨m, hm⟩ := Int.eq_ofNat_of_zero_le (show 0 ≤ 52 - e by omega)
    have h1 : (52 - e).toNat = m := by omega
    have h2 : (e - 52).toNat = 0 := by omega
    have h3 : e - 52 = -(m : ℤ) := by omega
    rw [h1, h2, h3]
    push_cast
    rw [zpow_neg, zpow_natCast]
    field_simp

/-- All that RNE64 can do on a magnitude `q = num / den > 0`: there are the exponent `e` of R11 and the rounded
significand `M`; `q` lies below `2^(e+1)`, and not below `2^e` unless `e` is the least exponent; `M` is `q` in units of
`2^(e-52)` rounded to nearest even; and the result is the infinity or the finite value that R11 makes of `M` and `e`. -/
theorem rne64_cases (neg : Bool) {num den : Nat} (hn : 0 < num) (hd : 0 < den) :
    ∃ (M : Nat) (e : Int), -1022 ≤ e ∧ (num : ℚ) / den < 2 ^ (e + 1) ∧ (2 ^ e ≤ (num : ℚ) / den ∨ e = -1022) ∧
      M ≤ 2 ^ 53 ∧ (M < 2 ^ 52 → e = -1022) ∧
      2 * |(M : ℚ) * 2 ^ (e - 52) - (num : ℚ) / den| ≤ 2 ^ (e - 52) ∧
      (2 * |(M : ℚ) * 2 ^ (e - 52) - (num : ℚ) / den| = 2 ^ (e - 52) → M % 2 = 0) ∧
      rne64 neg num den =
        if M = 2 ^ 53 then
          if 1023 < e + 1 then withSign neg infMag else withSign neg (finiteMag (2 ^ 52) (e + 1))
        else if 1023 < e then withSign neg infMag
        else withSign neg (finiteMag M e) := by
  obtain ⟨hlo, hhi⟩ := floorLog2_spec hn hd
  have two : (2 : ℚ) ≠ 0 := by norm_num
  refine ⟨rneDiv (num * 2 ^ (52 - max (floorLog2 num den) (-1022)).toNat)
      (den * 2 ^ (max (floorLog2 num den) (-1022) - 52).toNat), max (floorLog2 num den) (-1022), ?_⟩
  have hexp : -1022 ≤ max (floorLog2 num den) (-1022) := le_max_right _ _
  have hup : (num : ℚ) / den < 2 ^ (max (floorLog2 num den) (-1022) + 1) :=
    hhi.trans_le (zpow_le_zpow_right₀ (by norm_num) (by have := le_max_left (floorLog2 num den) (-1022); omega))
  have hdown : 2 ^ max (floorLog2 num den) (-1022) ≤ (num : ℚ) / den ∨ max (floorLog2 num den) (-1022) = -1022 := by
    rcases le_total (floorLog2 num den) (-1022) with h | h
    · exact .inr (max_eq_right h)
    · exact .inl (by rwa [max_eq_left h])
  have hne : num ≠ 0 := by omega
  have hdef := show rne64 neg num den = _ from by unfold rne64; rw [if_neg hne]
  simp only at hdef
  generalize max (floorLog2 num den) (-1022) = e at *
  have hsc := scaled_div num hd e
  have hD : 0 < den * 2 ^ (e - 52).toNat := by positivity
  generalize num * 2 ^ (52 - e).toNat = N at *
  generalize den * 2 ^ (e - 52).toNat = D at *
  obtain ⟨r1, r2, r3⟩ := rneDiv_spec N hD
  generalize rneDiv N D = M at *
  generalize (num : ℚ) / den = q at *
  have hu : (0 : ℚ) < 2 ^ (e - 52) := by positivity
  have hDq : (0 : ℚ) < D := by exact_mod_cast hD
  have hNq : (N : ℚ) = q / 2 ^ (e - 52) * D := by rw [← hsc]; field_simp
  have q1 : 2 * ((M : ℚ) * D) ≤ 2 * N + D := by exact_mod_cast r1
  have q2 : 2 * (N : ℚ) ≤ 2 * (M * D) + D := by exact_mod_cast r2
  -- the same bounds with the denominator divided away
  have b1 : 2 * (M : ℚ) ≤ 2 * (q / 2 ^ (e - 52)) + 1 := by
    rw [hNq] at q1
    nlinarith
  have b2 : 2 * (q / 2 ^ (e - 52)) ≤ 2 * (M : ℚ) + 1 := by
    rw [hNq] at q2
    nlinarith
  have hqm : q = q / 2 ^ (e - 52) * 2 ^ (e - 52) := by field_simp
  have habs : 2 * |(M : ℚ) * 2 ^ (e - 52) - q| = 2 * |(M : ℚ) - q / 2 ^ (e - 52)| * 2 ^ (e - 52) := by
    have : (M : ℚ) * 2 ^ (e - 52) - q = ((M : ℚ) - q / 2 ^ (e - 52)) * 2 ^ (e - 52) := by
      rw [sub_mul, ← hqm]
    rw [this, abs_mul, abs_of_pos hu, mul_assoc]
  have hm53 : q / 2 ^ (e - 52) < 2 ^ (53 : ℤ) := by
    rw [div_lt_iff₀ hu, ← zpow_add₀ two, show (53 : ℤ) + (e - 52) = e + 1 by ring]
    exact hup
  refine ⟨hexp, hup, hdown, ?_, ?_, ?_, ?_, hdef⟩
  · have : (2 : ℚ) * M < 2 * 2 ^ (53 : ℕ) + 1 := by
      have : (2 : ℚ) ^ (53 : ℤ) = 2 ^ (53 : ℕ) := by norm_num
      rw [this] at hm53
      linarith
    have : 2 * M < 2 * 2 ^ 53 + 1 := by exact_mod_cast this
    omega
  · intro hM
    rcases hdown with h | h
    · exfalso
      have hq52 : (2 : ℚ) ^ (52 : ℕ) ≤ q / 2 ^ (e - 52) := by
        rw [le_div_iff₀ hu, ← zpow_natCast, ← zpow_add₀ two, show ((52 : ℕ) : ℤ) + (e - 52) = e by push_cast; ring]
        exact h
      have : (2 : ℚ) * 2 ^ (52 : ℕ) ≤ 2 * M + 1 := by linarith
      have : 2 * 2 ^ 52 ≤ 2 * M + 1 := by exact_mod_cast this
      omega
    · exact h
  · rw [habs]
    have : 2 * |(M : ℚ) - q / 2 ^ (e - 52)| ≤ 1 := by
      rcases abs_cases ((M : ℚ) - q / 2 ^ (e - 52)) with ⟨h, -⟩ | ⟨h, -⟩ <;> rw [h] <;> linarith
    nlinarith
  · intro htie
    rw [habs] at htie
    have h1 : 2 * |(M : ℚ) - q / 2 ^ (e - 52)| = 1 := by
      have := mul_right_cancel₀ hu.ne' (htie.trans (one_mul _).symm)
      exact this
    apply r3
    rcases abs_cases ((M : ℚ) - q / 2 ^ (e - 52)) with ⟨h, -⟩ | ⟨h, -⟩
    · left
      have : (2 : ℚ) * (M * D) = 2 * N + D := by
        rw [hNq]
        have hM : (M : ℚ) = q / 2 ^ (e - 52) + 1 / 2 := by linarith
        rw [hM]
        ring
      exact_mod_cast this
    · right
      have : (2 : ℚ) * N = 2 * (M * D) + D := by
        rw [hNq]
        have hM : (M : ℚ) = q / 2 ^ (e - 52) - 1 / 2 := by linarith
        rw [hM]
        ring
      exact_mod_cast this

end Sys2Proof.Machine.Binary64
end

