-- ==== Sys2Proof/Laws/State.lean ====
section
/-! SUPPORT. One lemma per field of State per update: what each named operation leaves in each field. -/

namespace Sys2Proof.Machine

/-! ### `respond` -/

@[simp] theorem respond_cfg (r : Response) (s : State) :
    (respond r s).cfg = s.cfg := rfl

@[simp] theorem respond_ready (r : Response) (s : State) :
    (respond r s).ready = s.ready := rfl

@[simp] theorem respond_table (r : Response) (s : State) :
    (respond r s).table = s.table := rfl

@[simp] theorem respond_busy (r : Response) (s : State) :
    (respond r s).busy = s.busy := rfl

@[simp] theorem respond_req (r : Response) (s : State) :
    (respond r s).req = s.req := rfl

@[simp] theorem respond_elapsed (r : Response) (s : State) :
    (respond r s).elapsed = s.elapsed := rfl

@[simp] theorem respond_rspValid (r : Response) (s : State) :
    (respond r s).rspValid = true := rfl

@[simp] theorem respond_rsp (r : Response) (s : State) :
    (respond r s).rsp = r := rfl

@[simp] theorem respond_accepted (r : Response) (s : State) :
    (respond r s).accepted = s.accepted := rfl

@[simp] theorem respond_resets (r : Response) (s : State) :
    (respond r s).resets = s.resets := rfl

@[simp] theorem respond_host (r : Response) (s : State) :
    (respond r s).host = s.host := rfl

@[simp] theorem respond_log (r : Response) (s : State) :
    (respond r s).log = s.log := rfl

/-! ### `raise` -/

@[simp] theorem raise_cfg (st : Status) (m : BitVec 3) (s : State) :
    (raise st m s).cfg = s.cfg := rfl

@[simp] theorem raise_ready (st : Status) (m : BitVec 3) (s : State) :
    (raise st m s).ready = s.ready := rfl

@[simp] theorem raise_table (st : Status) (m : BitVec 3) (s : State) :
    (raise st m s).table = s.table := rfl

@[simp] theorem raise_busy (st : Status) (m : BitVec 3) (s : State) :
    (raise st m s).busy = s.busy := rfl

@[simp] theorem raise_req (st : Status) (m : BitVec 3) (s : State) :
    (raise st m s).req = s.req := rfl

@[simp] theorem raise_elapsed (st : Status) (m : BitVec 3) (s : State) :
    (raise st m s).elapsed = s.elapsed := rfl

@[simp] theorem raise_rspValid (st : Status) (m : BitVec 3) (s : State) :
    (raise st m s).rspValid = true := rfl

@[simp] theorem raise_rsp (st : Status) (m : BitVec 3) (s : State) :
    (raise st m s).rsp = { Response.blank with status := st, lmask := m } := rfl

@[simp] theorem raise_accepted (st : Status) (m : BitVec 3) (s : State) :
    (raise st m s).accepted = s.accepted := rfl

@[simp] theorem raise_resets (st : Status) (m : BitVec 3) (s : State) :
    (raise st m s).resets = s.resets := rfl

@[simp] theorem raise_host (st : Status) (m : BitVec 3) (s : State) :
    (raise st m s).host = s.host := rfl

@[simp] theorem raise_log (st : Status) (m : BitVec 3) (s : State) :
    (raise st m s).log = s.log := rfl

/-! ### `accept` -/

@[simp] theorem accept_cfg (r : Request) (s : State) :
    (accept r s).cfg = s.cfg := rfl

@[simp] theorem accept_ready (r : Request) (s : State) :
    (accept r s).ready = s.ready := rfl

@[simp] theorem accept_table (r : Request) (s : State) :
    (accept r s).table = s.table := rfl

@[simp] theorem accept_busy (r : Request) (s : State) :
    (accept r s).busy = true := rfl

@[simp] theorem accept_req (r : Request) (s : State) :
    (accept r s).req = r := rfl

@[simp] theorem accept_elapsed (r : Request) (s : State) :
    (accept r s).elapsed = 0 := rfl

@[simp] theorem accept_rspValid (r : Request) (s : State) :
    (accept r s).rspValid = false := rfl

@[simp] theorem accept_rsp (r : Request) (s : State) :
    (accept r s).rsp = s.rsp := rfl

@[simp] theorem accept_accepted (r : Request) (s : State) :
    (accept r s).accepted = s.accepted + 1 := rfl

@[simp] theorem accept_resets (r : Request) (s : State) :
    (accept r s).resets = s.resets := rfl

@[simp] theorem accept_host (r : Request) (s : State) :
    (accept r s).host = s.host := rfl

@[simp] theorem accept_log (r : Request) (s : State) :
    (accept r s).log = s.log := rfl

/-! ### `deliver` -/

@[simp] theorem deliver_cfg (s : State) :
    (deliver s).cfg = s.cfg := rfl

@[simp] theorem deliver_ready (s : State) :
    (deliver s).ready = s.ready := rfl

@[simp] theorem deliver_table (s : State) :
    (deliver s).table = s.table := rfl

@[simp] theorem deliver_busy (s : State) :
    (deliver s).busy = false := rfl

@[simp] theorem deliver_req (s : State) :
    (deliver s).req = s.req := rfl

@[simp] theorem deliver_elapsed (s : State) :
    (deliver s).elapsed = s.elapsed := rfl

@[simp] theorem deliver_rspValid (s : State) :
    (deliver s).rspValid = false := rfl

@[simp] theorem deliver_rsp (s : State) :
    (deliver s).rsp = s.rsp := rfl

@[simp] theorem deliver_accepted (s : State) :
    (deliver s).accepted = s.accepted := rfl

@[simp] theorem deliver_resets (s : State) :
    (deliver s).resets = s.resets := rfl

@[simp] theorem deliver_host (s : State) :
    (deliver s).host = s.host := rfl

@[simp] theorem deliver_log (s : State) :
    (deliver s).log = s.log ++ [s.rsp] := rfl

/-! ### `resetBlock` -/

@[simp] theorem resetBlock_cfg (s : State) :
    (resetBlock s).cfg = s.cfg := rfl

@[simp] theorem resetBlock_ready (s : State) :
    (resetBlock s).ready = false := rfl

@[simp] theorem resetBlock_table (s : State) :
    (resetBlock s).table = Table.ofEntries (Config.resetEntry s.resets) := rfl

@[simp] theorem resetBlock_busy (s : State) :
    (resetBlock s).busy = false := rfl

@[simp] theorem resetBlock_req (s : State) :
    (resetBlock s).req = Request.zero := rfl

@[simp] theorem resetBlock_elapsed (s : State) :
    (resetBlock s).elapsed = 0 := rfl

@[simp] theorem resetBlock_rspValid (s : State) :
    (resetBlock s).rspValid = false := rfl

@[simp] theorem resetBlock_rsp (s : State) :
    (resetBlock s).rsp = Response.blank := rfl

@[simp] theorem resetBlock_accepted (s : State) :
    (resetBlock s).accepted = s.accepted := rfl

@[simp] theorem resetBlock_resets (s : State) :
    (resetBlock s).resets = s.resets + 1 := rfl

@[simp] theorem resetBlock_host (s : State) :
    (resetBlock s).host = s.host := rfl

@[simp] theorem resetBlock_log (s : State) :
    (resetBlock s).log = s.log := rfl

/-! ### `buildAndSetReady` -/

@[simp] theorem buildAndSetReady_cfg (s : State) :
    (buildAndSetReady s).cfg = s.cfg := rfl

@[simp] theorem buildAndSetReady_ready (s : State) :
    (buildAndSetReady s).ready = true := rfl

@[simp] theorem buildAndSetReady_table (s : State) :
    (buildAndSetReady s).table = builtTable s.cfg := rfl

@[simp] theorem buildAndSetReady_busy (s : State) :
    (buildAndSetReady s).busy = s.busy := rfl

@[simp] theorem buildAndSetReady_req (s : State) :
    (buildAndSetReady s).req = s.req := rfl

@[simp] theorem buildAndSetReady_elapsed (s : State) :
    (buildAndSetReady s).elapsed = s.elapsed := rfl

@[simp] theorem buildAndSetReady_rspValid (s : State) :
    (buildAndSetReady s).rspValid = s.rspValid := rfl

@[simp] theorem buildAndSetReady_rsp (s : State) :
    (buildAndSetReady s).rsp = s.rsp := rfl

@[simp] theorem buildAndSetReady_accepted (s : State) :
    (buildAndSetReady s).accepted = s.accepted := rfl

@[simp] theorem buildAndSetReady_resets (s : State) :
    (buildAndSetReady s).resets = s.resets := rfl

@[simp] theorem buildAndSetReady_host (s : State) :
    (buildAndSetReady s).host = s.host := rfl

@[simp] theorem buildAndSetReady_log (s : State) :
    (buildAndSetReady s).log = s.log := rfl

/-! ### `State.reset` -/

@[simp] theorem reset_cfg : State.reset.cfg = Config.fpqPkWrap := rfl

@[simp] theorem reset_ready : State.reset.ready = false := rfl

@[simp] theorem reset_table : State.reset.table = Table.empty := rfl

@[simp] theorem reset_busy : State.reset.busy = false := rfl

@[simp] theorem reset_req : State.reset.req = Request.zero := rfl

@[simp] theorem reset_elapsed : State.reset.elapsed = 0 := rfl

@[simp] theorem reset_rspValid : State.reset.rspValid = false := rfl

@[simp] theorem reset_rsp : State.reset.rsp = Response.blank := rfl

@[simp] theorem reset_accepted : State.reset.accepted = 0 := rfl

@[simp] theorem reset_resets : State.reset.resets = 0 := rfl

@[simp] theorem reset_host : State.reset.host = [] := rfl

@[simp] theorem reset_log : State.reset.log = [] := rfl

end Sys2Proof.Machine
end

