-- ==== Sys2Proof/Laws/Exec.lean ====
section
/-! SUPPORT. What each shared operation, each meaning, each clock edge and each step can do, said once. -/

namespace Sys2Proof.Machine

/-! ### Outcomes -/

@[simp] theorem mapNext_next (f : State → State) (s : State) : mapNext f (.next s) = .next (f s) := rfl

/-- A mapped outcome is a next state exactly when the outcome is. -/
theorem mapNext_eq_next {f : State → State} {o : Host.Outcome State Fault Refusal} {t : State} :
    mapNext f o = .next t ↔ ∃ u, o = .next u ∧ t = f u := by
  cases o <;> simp [mapNext, eq_comm]

/-! ### Lane masks -/

@[simp] theorem laneMask_bit_x (l : Lanes Bool) : (laneMask l)[2] = l.x := by
  rcases l with ⟨x, y, z⟩; revert x y z; decide

@[simp] theorem laneMask_bit_y (l : Lanes Bool) : (laneMask l)[1] = l.y := by
  rcases l with ⟨x, y, z⟩; revert x y z; decide

@[simp] theorem laneMask_bit_z (l : Lanes Bool) : (laneMask l)[0] = l.z := by
  rcases l with ⟨x, y, z⟩; revert x y z; decide

/-- A lane mask is 0 exactly when it marks no lane. -/
theorem laneMask_eq_zero {l : Lanes Bool} : laneMask l = 0 ↔ l.x = false ∧ l.y = false ∧ l.z = false := by
  rcases l with ⟨x, y, z⟩; revert x y z; decide

/-- A lane mask and its lanes determine each other. -/
theorem maskLanes_laneMask (l : Lanes Bool) : maskLanes (laneMask l) = l := by
  rcases l with ⟨x, y, z⟩; revert x y z; decide

/-! ### Encode and decode -/

@[simp] theorem value_beq_unknown (s : Int) (b : W64) : (DecodeResult.value s b == DecodeResult.unknown) = false := by
  simp

@[simp] theorem code_beq_invalid (c : W16) : (EncodeResult.code c == EncodeResult.invalid) = false := by simp

@[simp] theorem code_beq_unrep (c : W16) : (EncodeResult.code c == EncodeResult.unrep) = false := by simp

/-- The four ways encode ends, each with its condition. -/
theorem encodeValue_cases (cfg : Config) (v : W64) :
    (Binary64.isFinite v = false ∧ encodeValue cfg v = .invalid) ∨
    (Binary64.isFinite v = true ∧ Binary64.isFinite (scaledProduct v) = false ∧ encodeValue cfg v = .invalid) ∨
    (Binary64.isFinite v = true ∧ Binary64.isFinite (scaledProduct v) = true ∧ cfg.policy = .rangeChecked ∧
      cfg.rangeBound < (scaledInteger v).natAbs ∧ encodeValue cfg v = .unrep) ∨
    (Binary64.isFinite v = true ∧ Binary64.isFinite (scaledProduct v) = true ∧
      ¬ (cfg.policy = .rangeChecked ∧ cfg.rangeBound < (scaledInteger v).natAbs) ∧
      encodeValue cfg v = .code (codeOf (scaledInteger v))) := by
  unfold encodeValue
  by_cases h1 : Binary64.isFinite v = false
  · exact .inl ⟨h1, if_pos h1⟩
  · by_cases h2 : Binary64.isFinite (scaledProduct v) = false
    · exact .inr (.inl ⟨by simpa using h1, h2, by rw [if_neg h1, if_pos h2]⟩)
    · by_cases h3 : cfg.policy = .rangeChecked ∧ cfg.rangeBound < (scaledInteger v).natAbs
      · exact .inr (.inr (.inl ⟨by simpa using h1, by simpa using h2, h3.1, h3.2,
          by rw [if_neg h1, if_neg h2, if_pos h3]⟩))
      · exact .inr (.inr (.inr ⟨by simpa using h1, by simpa using h2, h3,
          by rw [if_neg h1, if_neg h2, if_neg h3]⟩))

theorem decodeCode_of_none {t : Table} {c : W16} (h : t.read c = none) : decodeCode t c = .unknown := by
  simp [decodeCode, h]

theorem decodeCode_of_some {t : Table} {c : W16} {e : Int} (h : t.read c = some e) :
    decodeCode t c = .value e (Binary64.divNat e Config.scale) := by
  simp [decodeCode, h]

/-! ### The meanings -/

/-- All that INIT can do. -/
theorem execInit_cases {s t : State} (h : execInit s = .next t) :
    (s.ready = true ∧ t = respond { Response.blank with status := .ok } s) ∨
    (s.ready = false ∧ t = respond { Response.blank with status := .ok } (buildAndSetReady s)) := by
  unfold execInit at h
  split at h
  · exact .inl ⟨‹_›, by simpa using h.symm⟩
  · rename_i hr
    exact .inr ⟨by simpa using hr, by simpa using h.symm⟩

/-- All that PACK can do: it writes its response and nothing else. -/
theorem execPack_cases {tag : W8} {s t : State} (h : execPack tag s = .next t) : ∃ r, t = respond r s := by
  unfold execPack at h
  split at h
  · exact ⟨_, by simpa [raise] using h.symm⟩
  · simp only at h
    split at h
    · exact ⟨_, by simpa [raise] using h.symm⟩
    · split at h
      · exact ⟨_, by simpa [raise] using h.symm⟩
      · exact ⟨_, by simpa using h.symm⟩

/-- All that UNPACK can do: it writes its response and nothing else. -/
theorem execUnpack_cases {rx : W8} {s t : State} (h : execUnpack rx s = .next t) : ∃ r, t = respond r s := by
  unfold execUnpack at h
  split at h
  · exact ⟨_, by simpa [raise] using h.symm⟩
  · split at h
    · exact ⟨_, by simpa using h.symm⟩
    · exact ⟨_, by simpa using h.symm⟩

/-- All that a command can do: it writes its response, and an INIT with READY = 0 builds T and sets READY first. -/
theorem exec_cases {i : Instr} {s t : State} (h : exec i s = .next t) :
    ∃ r, t = respond r s ∨ (i = .init ∧ s.ready = false ∧ t = respond r (buildAndSetReady s)) := by
  cases i with
  | init =>
    rcases execInit_cases h with ⟨-, rfl⟩ | ⟨hr, rfl⟩
    · exact ⟨_, .inl rfl⟩
    · exact ⟨_, .inr ⟨rfl, hr, rfl⟩⟩
  | pack tag =>
    obtain ⟨r, rfl⟩ := execPack_cases h
    exact ⟨r, .inl rfl⟩
  | unpack rx =>
    obtain ⟨r, rfl⟩ := execUnpack_cases h
    exact ⟨r, .inl rfl⟩

/-- Every command has a next state in every state. -/
theorem exec_next (i : Instr) (s : State) : ∃ t, exec i s = .next t := by
  cases i with
  | init =>
    simp only [exec, execInit]
    split <;> simp
  | pack tag =>
    simp only [exec, execPack]
    split
    · simp
    · split
      · simp
      · split <;> simp
  | unpack rx =>
    simp only [exec, execUnpack]
    split
    · simp
    · split <;> simp

/-! ### The command in flight -/

theorem runCommand_of_legal {s : State} {i : Instr} (h : decodeCmd s.req.cmd = .ok i) : runCommand s = exec i s := by
  simp [runCommand, h]

theorem runCommand_of_illegal {s : State} {e : Illegal} (h : decodeCmd s.req.cmd = .error e) :
    runCommand s = .next (raise .illegalCommand 0 s) := by
  simp [runCommand, h]

/-- All that running the command in flight can do. -/
theorem runCommand_cases {s t : State} (h : runCommand s = .next t) :
    ∃ r, t = respond r s ∨
      (decodeCmd s.req.cmd = .ok .init ∧ s.ready = false ∧ t = respond r (buildAndSetReady s)) := by
  cases hd : decodeCmd s.req.cmd with
  | error e =>
    rw [runCommand_of_illegal hd] at h
    exact ⟨_, .inl (by simpa [raise] using h.symm)⟩
  | ok i =>
    rw [runCommand_of_legal hd] at h
    obtain ⟨r, h | ⟨rfl, hr, h⟩⟩ := exec_cases h
    · exact ⟨r, .inl h⟩
    · exact ⟨r, .inr ⟨rfl, hr, h⟩⟩

/-- The command in flight always has a next state. -/
theorem runCommand_next (s : State) : ∃ t, runCommand s = .next t := by
  cases hd : decodeCmd s.req.cmd with
  | error e => exact ⟨_, runCommand_of_illegal hd⟩
  | ok i => rw [runCommand_of_legal hd]; exact exec_next i s

/-- Ending the command in flight always has a next state. -/
theorem completeCommand_next (s : State) : ∃ t, completeCommand s = .next t := by
  unfold completeCommand
  split
  · exact ⟨_, rfl⟩
  · obtain ⟨t, ht⟩ := runCommand_next s
    exact ⟨_, by rw [ht]; rfl⟩

/-- All that ending the command in flight can do. -/
theorem completeCommand_cases {s t : State} (h : completeCommand s = .next t) :
    (s.rspValid = true ∧ t = deliver s) ∨
    (s.rspValid = false ∧ ∃ u, runCommand s = .next u ∧ t = deliver u) := by
  unfold completeCommand at h
  split at h
  · exact .inl ⟨‹_›, by simpa using h.symm⟩
  · rename_i hv
    obtain ⟨u, hu, rfl⟩ := mapNext_eq_next.mp h
    exact .inr ⟨by simpa using hv, u, hu, rfl⟩

/-- All that a clock edge can do. -/
theorem clockEdge_cases {p : Pins} {s t : State} (h : clockEdge p s = .next t) :
    (p.rst = true ∧ t = resetBlock s) ∨
    (p.rst = false ∧ s.busy = false ∧ p.cmdValid = true ∧ t = accept p.req s) ∨
    (p.rst = false ∧ s.busy = false ∧ p.cmdValid = false ∧ t = s) ∨
    (p.rst = false ∧ s.busy = true ∧ s.rspValid = true ∧ p.rspReady = true ∧ t = deliver s) ∨
    (p.rst = false ∧ s.busy = true ∧ s.rspValid = true ∧ p.rspReady = false ∧ t = s) ∨
    (p.rst = false ∧ s.busy = true ∧ s.rspValid = false ∧ latency s ≤ s.elapsed + 1 ∧
      runCommand { s with elapsed := s.elapsed + 1 } = .next t) ∨
    (p.rst = false ∧ s.busy = true ∧ s.rspValid = false ∧ s.elapsed + 1 < latency s ∧
      t = { s with elapsed := s.elapsed + 1 }) := by
  unfold clockEdge at h
  cases hr : p.rst <;> cases hb : s.busy <;> cases hv : s.rspValid <;> cases hc : p.cmdValid <;>
    cases hy : p.rspReady <;> simp [hr, hb, hv, hc, hy] at h <;> first
    | (split at h
       · simp [*]
       · simp only [Host.Outcome.next.injEq] at h; simp [h.symm]; omega)
    | simp [h.symm]

/-- All that a step can do. -/
theorem step_cases {s t : State} (h : step s = .next t) :
    (s.host = [] ∧ t = s) ∨
    (∃ es, s.host = .reset :: es ∧ t = resetBlock { s with host := es }) ∨
    (∃ p es, s.host = .edge p :: es ∧ clockEdge p { s with host := es } = .next t) ∨
    (∃ r es, s.host = .command r :: es ∧ s.busy = true ∧ completeCommand s = .next t) ∨
    (∃ r es u, s.host = .command r :: es ∧ s.busy = false ∧
      runCommand (accept r { s with host := es }) = .next u ∧ t = deliver u) := by
  unfold step at h
  split at h
  · exact .inl ⟨‹_›, by simpa using h.symm⟩
  · exact .inr (.inl ⟨_, ‹_›, by simpa using h.symm⟩)
  · exact .inr (.inr (.inl ⟨_, _, ‹_›, h⟩))
  · rename_i r es hh
    by_cases hb : s.busy = true
    · rw [if_pos hb] at h
      exact .inr (.inr (.inr (.inl ⟨r, es, hh, hb, h⟩)))
    · rw [if_neg hb] at h
      rcases completeCommand_cases h with ⟨hv, -⟩ | ⟨-, u, hu, rfl⟩
      · simp at hv
      · exact .inr (.inr (.inr (.inr ⟨r, es, u, hh, by simpa using hb, hu, rfl⟩)))

end Sys2Proof.Machine
end

