-- ==== Sys2Proof/Laws/PerInstr.lean ====
section
/-! SUPPORT. Statements about every command, one lemma per constructor of Instr. -/

namespace Sys2Proof.Laws.TableRow

/-- The word of a command matches its row of the opcode table (30_encoding.md R63), and the bits the row leaves free
are the command's tag. -/
def Statement (i : Instr) : Prop :=
  encodeCmd i &&& rowMask i = rowMatch i ∧ rsv0Field (encodeCmd i) = 0 ∧ rsv1Field (encodeCmd i) = 0

theorem init : Statement .init := by unfold Statement; decide

theorem pack (tag : W8) : Statement (.pack tag) := by
  unfold Statement
  revert tag
  decide

theorem unpack (rx : W8) : Statement (.unpack rx) := by
  unfold Statement
  revert rx
  decide

end Sys2Proof.Laws.TableRow
end

