-- ==== Sys2Proof/Laws/Table.lean ====
section
/-! SUPPORT. The laws of the decode table: what reading after writing gives, that every operation keeps the canonical
form, that equal tables are equal data, and the built table entry by entry. -/

namespace Sys2Proof.Machine

/-! ### Lookup in a list of runs -/

/-- Below every start, the delta in force is the one before the list. -/
theorem deltaAt_of_lt {cur : Option Int} {rs : List Run} {c : Nat} (h : ∀ r ∈ rs, c < r.start) :
    deltaAt cur rs c = cur := by
  cases rs with
  | nil => rfl
  | cons r rs => simp [deltaAt, h r (by simp)]

/-- The delta in force changes only at a start. -/
theorem deltaAt_succ {rs : List Run} {c : Nat} (h : ∀ r ∈ rs, r.start ≠ c + 1) (cur : Option Int) :
    deltaAt cur rs (c + 1) = deltaAt cur rs c := by
  induction rs generalizing cur with
  | nil => rfl
  | cons r rs ih =>
    have hr := h r (by simp)
    have hiff : c + 1 < r.start ↔ c < r.start := by omega
    simp only [deltaAt, hiff, ih (fun x hx => h x (by simp [hx]))]

/-- The run of a code and its delta, for a list of codes to look at. -/
def breakRuns (f : Nat → Option Int) (bs : List Nat) : List Run :=
  bs.map fun b => { start := b, delta := deltaOf f b }

theorem mem_breakRuns {f : Nat → Option Int} {bs : List Nat} {r : Run} (h : r ∈ breakRuns f bs) :
    r.start ∈ bs := by
  obtain ⟨b, hb, rfl⟩ := List.mem_map.mp h
  exact hb

/-- Leaving out the runs that repeat the delta before them changes no lookup. -/
theorem deltaAt_runsOf (f : Nat → Option Int) {bs : List Nat} (hs : bs.Pairwise (· < ·)) (cur : Option Int) (c : Nat) :
    deltaAt cur (runsOf f cur bs) c = deltaAt cur (breakRuns f bs) c := by
  induction bs generalizing cur with
  | nil => rfl
  | cons b bs ih =>
    obtain ⟨hlt, hs'⟩ := List.pairwise_cons.mp hs
    by_cases hd : deltaOf f b = cur
    · have hrun : runsOf f cur (b :: bs) = runsOf f cur bs := by simp [runsOf, hd]
      rw [hrun, ih hs']
      by_cases hc : c < b
      · rw [deltaAt_of_lt (fun r hr => lt_trans hc (hlt _ (mem_breakRuns hr)))]
        simp [breakRuns, deltaAt, hc]
      · simp [breakRuns, deltaAt, hc, hd]
    · simp only [runsOf, if_neg hd, breakRuns, List.map_cons, deltaAt]
      rw [ih hs']
      rfl

/-- At a code of the list, the delta is the array's. -/
theorem deltaAt_breakRuns_mem (f : Nat → Option Int) {bs : List Nat} (hs : bs.Pairwise (· < ·)) {c : Nat} (hc : c ∈ bs)
    (cur : Option Int) : deltaAt cur (breakRuns f bs) c = deltaOf f c := by
  induction bs generalizing cur with
  | nil => simp at hc
  | cons b bs ih =>
    obtain ⟨hlt, hs'⟩ := List.pairwise_cons.mp hs
    rcases List.mem_cons.mp hc with rfl | hc'
    · simp only [breakRuns, List.map_cons, deltaAt, lt_irrefl, if_false]
      exact deltaAt_of_lt fun r hr => hlt _ (mem_breakRuns hr)
    · have hnot : ¬ c < b := by have := hlt c hc'; omega
      simp only [breakRuns, List.map_cons, deltaAt, if_neg hnot]
      exact ih hs' hc' _

/-- A list of codes that sees every change of the array's delta below `n`. -/
def SeesChanges (f : Nat → Option Int) (bs : List Nat) (n : Nat) : Prop :=
  (0 ∉ bs → deltaOf f 0 = none) ∧ ∀ c, c + 1 < n → c + 1 ∉ bs → deltaOf f (c + 1) = deltaOf f c

/-- The runs of an array look up as the array, where the list of codes sees every change. -/
theorem deltaAt_runsOf_eq {f : Nat → Option Int} {bs : List Nat} {n : Nat} (hs : bs.Pairwise (· < ·))
    (hf : SeesChanges f bs n) {c : Nat} (hc : c < n) : deltaAt none (runsOf f none bs) c = deltaOf f c := by
  rw [deltaAt_runsOf f hs]
  induction c with
  | zero =>
    by_cases h0 : 0 ∈ bs
    · exact deltaAt_breakRuns_mem f hs h0 _
    · rw [hf.1 h0]
      refine deltaAt_of_lt fun r hr => Nat.pos_of_ne_zero fun h => h0 ?_
      rw [← h]
      exact mem_breakRuns hr
  | succ c ih =>
    by_cases hm : c + 1 ∈ bs
    · exact deltaAt_breakRuns_mem f hs hm _
    · rw [hf.2 c hc hm, ← ih (by omega)]
      refine deltaAt_succ (fun r hr h => hm ?_) _
      rw [← h]
      exact mem_breakRuns hr

/-- Adding the code back to a delta gives the entry. -/
theorem deltaOf_map_add (f : Nat → Option Int) (c : Nat) : (deltaOf f c).map (fun d => d + (c : Int)) = f c := by
  cases h : f c <;> simp [deltaOf, h]

/-- The delta of a table's entry is the delta in force. -/
theorem deltaOf_entry (t : Table) (c : Nat) : deltaOf t.entry c = deltaAt none t.runs c := by
  cases h : deltaAt none t.runs c <;> simp [deltaOf, Table.entry, h]

/-- The entries of a table made from an array. -/
theorem entry_runsOf {f : Nat → Option Int} {bs : List Nat} {n : Nat} (hs : bs.Pairwise (· < ·))
    (hf : SeesChanges f bs n) {c : Nat} (hc : c < n) : Table.entry { runs := runsOf f none bs } c = f c := by
  rw [Table.entry, deltaAt_runsOf_eq hs hf hc, deltaOf_map_add]

/-! ### The canonical form -/

/-- The runs of an array are in canonical form. -/
theorem runsWf_runsOf (f : Nat → Option Int) {bs : List Nat} (hs : bs.Pairwise (· < ·)) {lo : Nat}
    (hlo : ∀ b ∈ bs, lo ≤ b) (hhi : ∀ b ∈ bs, b < Config.nCodes) (cur : Option Int) :
    runsWf lo cur (runsOf f cur bs) = true := by
  induction bs generalizing cur lo with
  | nil => rfl
  | cons b bs ih =>
    obtain ⟨hlt, hs'⟩ := List.pairwise_cons.mp hs
    have hhi' : ∀ x ∈ bs, x < Config.nCodes := fun x hx => hhi x (by simp [hx])
    by_cases hd : deltaOf f b = cur
    · simp only [runsOf, if_pos hd]
      exact ih hs' (fun x hx => hlo x (by simp [hx])) hhi' _
    · simp only [runsOf, if_neg hd, runsWf, Bool.and_eq_true, decide_eq_true_eq]
      exact ⟨⟨⟨hlo b (by simp), hhi b (by simp)⟩, hd⟩, ih hs' (fun x hx => hlt x hx) hhi' _⟩

/-- Runs in canonical form, taken apart. -/
theorem runsWf_cons {lo : Nat} {cur : Option Int} {r : Run} {rs : List Run} :
    runsWf lo cur (r :: rs) = true ↔
      lo ≤ r.start ∧ r.start < Config.nCodes ∧ r.delta ≠ cur ∧ runsWf (r.start + 1) r.delta rs = true := by
  simp [runsWf, and_assoc]

/-- In canonical form every start lies from `lo` on and below the number of codes. -/
theorem start_of_runsWf {lo : Nat} {cur : Option Int} {rs : List Run} (h : runsWf lo cur rs = true) :
    ∀ r ∈ rs, lo ≤ r.start ∧ r.start < Config.nCodes := by
  induction rs generalizing lo cur with
  | nil => simp
  | cons r rs ih =>
    obtain ⟨h1, h2, -, h4⟩ := runsWf_cons.mp h
    intro x hx
    rcases List.mem_cons.mp hx with rfl | hx'
    · exact ⟨h1, h2⟩
    · have := ih h4 x hx'
      omega

/-- In canonical form the starts rise. -/
theorem starts_pairwise {lo : Nat} {cur : Option Int} {rs : List Run} (h : runsWf lo cur rs = true) :
    (rs.map Run.start).Pairwise (· < ·) := by
  induction rs generalizing lo cur with
  | nil => simp
  | cons r rs ih =>
    obtain ⟨-, -, -, h4⟩ := runsWf_cons.mp h
    refine List.pairwise_cons.mpr ⟨fun c hc => ?_, ih h4⟩
    obtain ⟨x, hx, rfl⟩ := List.mem_map.mp hc
    have := start_of_runsWf h4 x hx
    omega

/-- Two lists of runs in canonical form that look up the same are the same list. -/
theorem runs_ext {lo : Nat} {cur : Option Int} {rs rs' : List Run} (h : runsWf lo cur rs = true)
    (h' : runsWf lo cur rs' = true)
    (heq : ∀ c, lo ≤ c → c < Config.nCodes → deltaAt cur rs c = deltaAt cur rs' c) : rs = rs' := by
  have atStart : ∀ {lo cur r rs}, runsWf lo cur (r :: rs) = true → deltaAt cur (r :: rs) r.start = r.delta := by
    intro lo cur r rs h
    obtain ⟨-, -, -, h4⟩ := runsWf_cons.mp h
    simp only [deltaAt, lt_irrefl, if_false]
    exact deltaAt_of_lt fun x hx => (start_of_runsWf h4 x hx).1
  induction rs generalizing lo cur rs' with
  | nil =>
    cases rs' with
    | nil => rfl
    | cons r rs' =>
      obtain ⟨h1, h2, h3, -⟩ := runsWf_cons.mp h'
      have := heq r.start h1 h2
      rw [atStart h'] at this
      exact absurd this.symm h3
  | cons r rs ih =>
    obtain ⟨h1, h2, h3, h4⟩ := runsWf_cons.mp h
    cases rs' with
    | nil =>
      have := heq r.start h1 h2
      rw [atStart h] at this
      exact absurd this h3
    | cons r' rs' =>
      obtain ⟨h1', h2', h3', h4'⟩ := runsWf_cons.mp h'
      have below : ∀ (x : Run) (xs : List Run) (c : Nat), c < x.start → deltaAt cur (x :: xs) c = cur :=
        fun x xs c hc => by simp [deltaAt, hc]
      have hstart : r.start = r'.start := by
        rcases lt_trichotomy r.start r'.start with hlt | heqs | hgt
        · have := heq r.start h1 h2
          rw [atStart h, below r' rs' _ hlt] at this
          exact absurd this h3
        · exact heqs
        · have := heq r'.start h1' h2'
          rw [atStart h', below r rs _ hgt] at this
          exact absurd this.symm h3'
      have hdelta : r.delta = r'.delta := by
        have := heq r.start h1 h2
        rwa [atStart h, hstart, atStart h'] at this
      have hr : r = r' := by
        cases r; cases r'; simp_all
      subst hr
      refine congrArg (r :: ·) (ih h4 h4' fun c hc hc' => ?_)
      have := heq c (by omega) hc'
      have hn : ¬ c < r.start := by omega
      simpa only [deltaAt, if_neg hn] using this

/-- Equal tables are equal data: well-formed tables with the same entries are the same table. -/
theorem Table.ext_read {t u : Table} (ht : t.wf = true) (hu : u.wf = true) (h : ∀ c : W16, t.read c = u.read c) :
    t = u := by
  have hruns : t.runs = u.runs := by
    refine runs_ext ht hu fun c _ hc => ?_
    have hc' : c < 65536 := hc
    have := h (BitVec.ofNat 16 c)
    simp only [Table.read, BitVec.toNat_ofNat, Nat.reducePow, Nat.mod_eq_of_lt hc'] at this
    rw [← deltaOf_entry, ← deltaOf_entry, deltaOf, deltaOf, this]
  cases t; cases u; simp_all

/-! ### The operations -/

theorem Table.wf_empty : Table.empty.wf = true := rfl

@[simp] theorem Table.read_empty (c : W16) : Table.empty.read c = none := rfl

theorem range_pairwise (n : Nat) : (List.range n).Pairwise (· < ·) := List.pairwise_lt_range

/-- Every code number below `n` is looked at when all of them are. -/
theorem seesChanges_range (f : Nat → Option Int) {n : Nat} (hn : 0 < n) : SeesChanges f (List.range n) n :=
  ⟨fun h => absurd (List.mem_range.mpr hn) h, fun _ hk h => absurd (List.mem_range.mpr hk) h⟩

/-- A table made from an array has the array's entries. -/
theorem Table.read_ofEntries (f : Nat → Option Int) (c : W16) : (Table.ofEntries f).read c = f c.toNat := by
  have key : ∀ n : Nat, c.toNat < n → Table.entry { runs := runsOf f none (List.range n) } c.toNat = f c.toNat :=
    fun n hn => entry_runsOf (range_pairwise n) (seesChanges_range f (by omega)) hn
  exact key Config.nCodes c.isLt

/-- The table of an array's runs is in canonical form. -/
theorem Table.wf_runsOf (f : Nat → Option Int) {bs : List Nat} (hs : bs.Pairwise (· < ·))
    (hhi : ∀ b ∈ bs, b < Config.nCodes) : Table.wf { runs := runsOf f none bs } = true :=
  runsWf_runsOf f hs (fun _ _ => Nat.zero_le _) hhi _

/-- A table made from an array is in canonical form. -/
theorem Table.wf_ofEntries (f : Nat → Option Int) : (Table.ofEntries f).wf = true := by
  rw [Table.ofEntries]
  generalize hn : Config.nCodes = n
  exact Table.wf_runsOf f (range_pairwise n) fun b hb => hn ▸ List.mem_range.mp hb

theorem breaksAround_pairwise {rs : List Run} (h : (rs.map Run.start).Pairwise (· < ·)) (c : Nat) :
    (breaksAround rs c).Pairwise (· < ·) := by
  unfold breaksAround
  refine List.pairwise_append.mpr ⟨List.pairwise_append.mpr ⟨h.filter _, ?_, ?_⟩, h.filter _, ?_⟩
  · split <;> simp
  · intro a ha b hb
    have hac : a < c := by simpa using (List.mem_filter.mp ha).2
    split at hb <;> simp at hb <;> omega
  · intro a ha b hb
    have hcb : c + 1 < b := by simpa using (List.mem_filter.mp hb).2
    rcases List.mem_append.mp ha with ha | ha
    · have hac : a < c := by simpa using (List.mem_filter.mp ha).2
      omega
    · split at ha <;> simp at ha <;> omega

theorem mem_breaksAround {rs : List Run} {c k : Nat} (hk : k < Config.nCodes) (h : k ∉ breaksAround rs c) :
    k ≠ c ∧ k ≠ c + 1 ∧ ∀ r ∈ rs, r.start ≠ k := by
  simp only [breaksAround, List.mem_append, List.mem_cons, List.mem_filter, List.mem_map, decide_eq_true_eq,
    not_or, not_and] at h
  obtain ⟨⟨h1, h2, h3⟩, h4⟩ := h
  have hne : k ≠ c + 1 := by
    rintro rfl
    simp [hk] at h3
  refine ⟨h2, hne, fun r hr he => ?_⟩
  have a := h1 ⟨r, hr, he⟩
  have b := h4 ⟨r, hr, he⟩
  omega

/-- What a write makes of the entries: the one written is the new one, every other is the old one. -/
theorem Table.entry_write {t : Table} (ht : t.wf = true) (c : W16) (e : Option Int) {k : Nat} (hk : k < 65536) :
    (t.write c e).entry k = if k = c.toNat then e else t.entry k := by
  refine entry_runsOf (n := Config.nCodes) (breaksAround_pairwise (starts_pairwise ht) _) ⟨fun h => ?_, fun j hj h => ?_⟩
    hk
  · obtain ⟨h1, -, h3⟩ := mem_breaksAround (by simp [Config.nCodes]) h
    have : deltaOf t.entry 0 = none := by
      rw [deltaOf_entry]
      exact deltaAt_of_lt fun r hr => Nat.pos_of_ne_zero (h3 r hr)
    simpa [deltaOf, h1] using this
  · obtain ⟨h1, h2, h3⟩ := mem_breaksAround hj h
    have : deltaOf t.entry (j + 1) = deltaOf t.entry j := by
      rw [deltaOf_entry, deltaOf_entry]
      exact deltaAt_succ h3 _
    have h2' : j ≠ c.toNat := by omega
    simpa [deltaOf, h1, h2'] using this

/-- Reading back the entry just written. -/
theorem Table.read_write_same {t : Table} (ht : t.wf = true) (c : W16) (e : Option Int) :
    (t.write c e).read c = e := by
  rw [Table.read, Table.entry_write ht c e c.isLt, if_pos rfl]

/-- A write leaves every other entry alone. -/
theorem Table.read_write_other {t : Table} (ht : t.wf = true) {c d : W16} (h : d ≠ c) (e : Option Int) :
    (t.write c e).read d = t.read d := by
  have : d.toNat ≠ c.toNat := fun he => h (BitVec.eq_of_toNat_eq he)
  rw [Table.read, Table.entry_write ht c e d.isLt, if_neg this, Table.read]

/-- A write keeps the canonical form. -/
theorem Table.wf_write {t : Table} (ht : t.wf = true) (c : W16) (e : Option Int) : (t.write c e).wf = true := by
  refine runsWf_runsOf _ (breaksAround_pairwise (starts_pairwise ht) _) (fun _ _ => Nat.zero_le _) (fun b hb => ?_) _
  have hc : c.toNat < Config.nCodes := c.isLt
  rcases List.mem_append.mp hb with hb | hb
  · rcases List.mem_append.mp hb with hb | hb
    · have : b < c.toNat := by simpa using (List.mem_filter.mp hb).2
      omega
    · split at hb <;> simp at hb <;> omega
  · obtain ⟨r, hr, rfl⟩ := List.mem_map.mp (List.mem_filter.mp hb).1
    exact (start_of_runsWf ht r hr).2

/-- The enumeration keeps the canonical form. -/
theorem Table.wf_enumerate {t : Table} (ht : t.wf = true) (i : Int) (n : Nat) : (t.enumerate i n).wf = true := by
  induction n generalizing t i with
  | zero => exact ht
  | succ n ih => exact ih (Table.wf_write ht _ _) _

/-- The clearing pass keeps the canonical form. -/
theorem Table.wf_clearAll {t : Table} (ht : t.wf = true) : t.clearAll.wf = true := by
  unfold Table.clearAll
  generalize List.range Config.nCodes = cs
  induction cs generalizing t with
  | nil => exact ht
  | cons c cs ih => exact ih (Table.wf_write ht _ _)

/-- BuildTable keeps the canonical form. -/
theorem wf_buildTable (cfg : Config) {t : Table} (ht : t.wf = true) : (buildTable cfg t).wf = true :=
  Table.wf_enumerate (Table.wf_clearAll ht) _ _

/-! ### The built table -/

theorem builtBreaks_pairwise (lo hi : Int) : (builtBreaks lo hi).Pairwise (· < ·) := by
  simp only [builtBreaks]
  split <;> split <;> split <;> simp <;> omega

theorem builtBreaks_lt {lo hi : Int} {b : Nat} (h : b ∈ builtBreaks lo hi) : b < Config.nCodes := by
  have : (65536 : Nat) = Config.nCodes := rfl
  simp only [builtBreaks] at h
  split at h <;> split at h <;> split at h <;> simp at h <;> omega

/-- The built table is in canonical form. -/
theorem wf_builtTable (cfg : Config) : (builtTable cfg).wf = true :=
  Table.wf_runsOf _ (builtBreaks_pairwise _ _) fun _ h => builtBreaks_lt h

theorem not_mem_builtBreaks {lo hi : Int} {k : Nat} (h : k ∉ builtBreaks lo hi) (hk : k < 65536) :
    k ≠ 0 ∧ k ≠ (hi % 65536).toNat + 1 ∧
    ((k : Int) ≤ hi % 65536 → (k : Int) ≠ lo - (hi - hi % 65536)) ∧
    (hi % 65536 + 1 < (k : Int) → (k : Int) ≠ lo - (hi - hi % 65536) + 65536) := by
  simp only [builtBreaks, List.mem_cons, List.mem_append, not_or] at h
  obtain ⟨h0, ⟨h1, h2⟩, h3⟩ := h
  refine ⟨h0, ?_, ?_, ?_⟩
  · rintro rfl
    simp [hk] at h2
  · intro hle he
    apply h1
    rw [if_pos (by omega)]
    simp
    omega
  · intro hlt he
    apply h3
    rw [if_pos (by omega)]
    simp
    omega

/-- The breaks of the built table see every change of its closed form. -/
theorem builtBreaks_seesChanges (lo hi : Int) :
    SeesChanges (greatestInClass lo hi) (builtBreaks lo hi) 65536 := by
  refine ⟨fun h => absurd (by simp [builtBreaks]) h, fun c hc hm => ?_⟩
  obtain ⟨-, h2, h3, h4⟩ := not_mem_builtBreaks hm hc
  simp only [deltaOf, greatestInClass]
  have hh : (0 : Int) ≤ hi % 65536 ∧ hi % 65536 < 65536 := by omega
  push_cast at h2 h3 h4 ⊢
  split <;> split <;> simp <;> omega

/-- The built table entry by entry: the greatest integer of the domain in each residue class (R122). -/
theorem read_builtTable (cfg : Config) (c : W16) :
    (builtTable cfg).read c = greatestInClass cfg.domain.1 cfg.domain.2 c.toNat :=
  entry_runsOf (builtBreaks_pairwise _ _) (builtBreaks_seesChanges _ _) c.isLt

/-! ### The enumeration, entry by entry -/

/-- A code is the scaled integer modulo 65536 (00_scope.md R9). -/
theorem codeOf_toNat (i : Int) : ((codeOf i).toNat : Int) = i % 65536 := by
  simp only [codeOf, BitVec.toNat_ofInt]
  omega

/-- What the enumeration leaves in an entry: the greatest enumerated integer of its class, else what stood there. -/
theorem read_enumerate {t : Table} (ht : t.wf = true) (i : Int) (n : Nat) (c : W16) :
    (t.enumerate i n).read c = (greatestInClass i (i + n - 1) c.toNat).or (t.read c) := by
  induction n generalizing t i with
  | zero =>
    have : greatestInClass i (i + (0:Nat) - 1) c.toNat = none := by
      simp only [greatestInClass]; rw [if_neg]; omega
    rw [this]; rfl
  | succ n ih =>
    rw [Table.enumerate, ih (Table.wf_write ht _ _)]
    have h1 := codeOf_toNat i
    have hc := c.isLt
    by_cases h : c = codeOf i
    · subst h
      rw [Table.read_write_same ht]
      simp only [greatestInClass, h1]
      push_cast
      split <;> split <;> simp <;> omega
    · rw [Table.read_write_other ht h]
      have hne : (c.toNat : Int) ≠ i % 65536 := by
        intro he; apply h; apply BitVec.eq_of_toNat_eq; omega
      congr 1
      simp only [greatestInClass]
      push_cast
      have : i + 1 + (n:Int) - 1 = i + (n + 1) - 1 := by ring
      rw [this]
      split <;> split <;> simp <;> omega

/-- Clearing a list of codes leaves each of them EMPTY. -/
theorem read_clear (cs : List Nat) {t : Table} (ht : t.wf = true) (c : W16) (h : c.toNat ∈ cs ∨ t.read c = none) :
   (cs.foldl (fun u c => u.write (BitVec.ofNat 16 c) none) t).read c = none := by
  induction cs generalizing t with
  | nil => simpa using h
  | cons k cs ih =>
    refine ih (Table.wf_write ht _ _) ?_
    by_cases hk : c = BitVec.ofNat 16 k
    · right; rw [hk, Table.read_write_same ht]
    · rw [Table.read_write_other ht hk]
      rcases h with h | h
      · rcases List.mem_cons.mp h with h | h
        · exact absurd (by rw [← h]; simp) hk
        · exact .inl h
      · exact .inr h

/-- Clearing every code below `n`. -/
theorem read_clear_range (n : Nat) {t : Table} (ht : t.wf = true) (c : W16) (h : c.toNat < n) :
   ((List.range n).foldl (fun u c => u.write (BitVec.ofNat 16 c) none) t).read c = none :=
  read_clear _ ht c (.inl (List.mem_range.mpr h))

/-- The clearing pass leaves every entry EMPTY. -/
theorem Table.read_clearAll {t : Table} (ht : t.wf = true) (c : W16) : t.clearAll.read c = none := by
  rw [Table.clearAll]
  exact read_clear_range Config.nCodes ht c c.isLt

end Sys2Proof.Machine
end

