-- ==== Sys2Proof/Tests/Slice0.lean ====
section
/-! SUPPORT. The model's own tests. Expected values are those of 95_test_vectors.md and of the rules named. Then, for
every statement with hypotheses, a named witness that meets them. -/

namespace Sys2Proof.Tests

open Sys2Proof Sys2Proof.Machine

/-- A state after INIT under the given configuration, with the given command word and ports sampled. -/
def readyState (cfg : Config) (req : Request) : State :=
  { State.reset with cfg := cfg, ready := true, table := builtTable cfg, req := req }

/-- Ports with the three values of PACK. -/
def values (x y z : W64) : Request := { Request.zero with opx := x, opy := y, opz := z }

/-- Ports with a packet word. -/
def packet (p : W64) : Request := { Request.zero with pktIn := p }

/-- The response a meaning leaves, if it has a next state. -/
def responseOf : Host.Outcome State Fault Refusal → Option Response
  | .next s => some s.rsp
  | .fault _ => none
  | .refused _ => none

/-! ### Well-formedness -/

theorem test_wf_default : Config.fpqPkWrap.wellFormed = true ∧ Config.fpqPkRangeChecked.wellFormed = true := by decide

theorem test_wf_refuses_low_bound : { Config.fpqPkWrap with enumLo := -2147483649 }.wellFormed = false := by decide

theorem test_wf_refuses_crossed_bounds : { Config.fpqPkWrap with enumLo := 10000000 }.wellFormed = false := by decide

theorem test_wf_refuses_high_bound : { Config.fpqPkWrap with enumHi := 2147483648 }.wellFormed = false := by decide

theorem test_wf_refuses_range_bound : { Config.fpqPkWrap with rangeBound := 2147483648 }.wellFormed = false := by decide

/-- 00_scope.md R7, the relations among the fixed widths. -/
theorem test_parameter_relations :
    Config.nCodes = 2 ^ Config.codeWidth ∧
    Config.lanes * Config.codeWidth + Config.addrWidth = Config.dataWidth ∧
    Config.dataWidth ≤ Config.packetWidth ∧ Config.addrWidth + Config.dataWidth = Config.packetWidth ∧
    Config.fpqPkWrap.enumHi - Config.fpqPkWrap.enumLo + 1 = 19999999 := by decide

/-! ### Command words, each written out from 30_encoding.md R63 -/

theorem test_decode_init : decodeCmd 0b00000000000000000000000000000001 = .ok .init := by rfl

theorem test_decode_pack : decodeCmd 0b00000000000000000000101000000010 = .ok (.pack 10) := by rfl

theorem test_decode_unpack : decodeCmd 0b00000000000000000001100100000011 = .ok (.unpack 25) := by rfl

/-- 95_test_vectors.md 2.6. -/
theorem test_decode_illegal :
    [0x00000000, 0x00000101, 0x00000012, 0x00010002, 0x80000003, 0x00000004, 0x00000104, 0x0000000F].all
      (fun w => match decodeCmd w with | .ok _ => false | .error _ => true) = true := by decide

theorem test_decode_table_word : decodeTableWord 32 0x1903 = some (.unpack 25) ∧ decodeTableWord 32 0x11 = none := by decide

/-- 30_encoding.md R67. -/
theorem test_status_codes :
    [Status.ok, .accepted, .rejected, .notReady, .unknownCode, .unrepresentable, .invalidOperand, .illegalCommand].map
      Status.code = [0, 1, 2, 3, 4, 5, 6, 7] := by decide

/-! ### Encode (95_test_vectors.md 2.1) -/

theorem test_encode_wrap_codes :
    [0x0000000000000000, 0x8000000000000000, 0x3F1A36E2EB1C432D, 0xBF1A36E2EB1C432D, 0x3FF0000000000000,
     0xBFF0000000000000, 0x4004000000000000, 0x400A36AE7D566CF4, 0xC00A36AE7D566CF4, 0x400A36E2EB1C432D,
     0xC00A36E2EB1C432D, 0x4014000000000000, 0x401A36E2EB1C432D, 0xC01A36C8B4395810, 0x408F3FFFCB923A2A,
     0xC08F3FFFCB923A2A].map (encodeValue Config.fpqPkWrap) =
    [0x0000, 0x0000, 0x0001, 0xFFFF, 0x2710, 0xD8F0, 0x61A8, 0x7FFF, 0x8001, 0x8000, 0x8000, 0xC350, 0x0000, 0x0001,
     0x967F, 0x6981].map .code := by decide +kernel

theorem test_encode_wrap_corners :
    [0x3F0A36E2EB1C432D, 0xBF0A36E2EB1C432D, 0x3F23A92A30553261, 0xBEE4F8B588E368F1, 0x0000000000000001,
     0x7E37E43C8800759C].map (encodeValue Config.fpqPkWrap) =
    [0x0001, 0xFFFF, 0x0001, 0x0000, 0x0000, 0x0000].map .code := by decide +kernel

theorem test_encode_invalid :
    [0x7FEFFFFFFFFFFFFF, 0x7FF0000000000000, 0xFFF0000000000000, 0x7FF8000000000000, 0xFFF0000000000001].map
      (encodeValue Config.fpqPkWrap) = [.invalid, .invalid, .invalid, .invalid, .invalid] := by decide +kernel

theorem test_encode_range_checked :
    [0x400A36AE7D566CF4, 0xC00A36AE7D566CF4, 0x400A36E2EB1C432D, 0xC00A36E2EB1C432D, 0x7E37E43C8800759C].map
      (encodeValue Config.fpqPkRangeChecked) =
    [.code 0x7FFF, .code 0x8001, .unrep, .unrep, .unrep] := by decide +kernel

/-! ### The decode table (95_test_vectors.md 2.2) -/

theorem test_wrap_table :
    [0x0000, 0x0001, 0x2710, 0x7FFF, 0x8000, 0x8001, 0x967F, 0x9680, 0xD8F0, 0xFFFE, 0xFFFF].map
      (builtTable Config.fpqPkWrap).read =
    [9961472, 9961473, 9971472, 9994239, 9994240, 9994241, 9999999, 9934464, 9951472, 9961470, 9961471].map some := by
  decide

theorem test_range_checked_table :
    [0x0000, 0x0001, 0x2710, 0x7FFF, 0x8000, 0x8001, 0xD8F0, 0xFFFF].map (builtTable Config.fpqPkRangeChecked).read =
    [some 0, some 1, some 10000, some 32767, none, some (-32767), some (-10000), some (-1)] := by decide

/-- The enumeration of R120 on bounds small enough to run, against the closed form. -/
theorem test_enumerate_narrow :
    Table.enumerate Table.empty (-3) 7 = builtTable { Config.fpqPkWrap with enumLo := -3, enumHi := 3 } := by decide

/-- 95_test_vectors.md 2.2.1 and 2.2.2, the `V` patterns. -/
theorem test_decode_patterns :
    (decodeCode (builtTable Config.fpqPkWrap) 0x0000).vField = 0x408F212D77318FC5 ∧
    (decodeCode (builtTable Config.fpqPkWrap) 0x9680).vField = 0x408F0B923A29C77A ∧
    (decodeCode (builtTable Config.fpqPkRangeChecked) 0x8001).vField = 0xC00A36AE7D566CF4 ∧
    (decodeCode (builtTable Config.fpqPkRangeChecked) 0x0000).vField = 0 := by decide +kernel

/-! ### The commands -/

/-- 95_test_vectors.md 2.3, row 1. -/
theorem test_init_builds :
    (match exec .init State.reset with
      | .next s => s.ready && s.table.read 0 == some 9961472 && s.rsp == Response.blank
      | _ => false) = true := by decide

/-- 95_test_vectors.md 2.3, row 2: nothing is rebuilt, whatever the table holds. -/
theorem test_init_when_ready :
    (match exec .init { State.reset with ready := true } with
      | .next s => s.ready && s.table == Table.empty && s.rsp == Response.blank
      | _ => false) = true := by decide

/-- 95_test_vectors.md 2.4, row 1. -/
theorem test_pack_ok :
    responseOf (exec (.pack 10) (readyState Config.fpqPkWrap
      (values 0x3F1A36E2EB1C432D 0xBF1A36E2EB1C432D 0x400A36AE7D566CF4))) =
    some { Response.blank with pkt := 0x000001FFFF7FFF0A } := by decide +kernel

/-- 95_test_vectors.md 2.4, row 7: INVALID outranks UNREP. -/
theorem test_pack_invalid_outranks :
    responseOf (exec (.pack 1) (readyState Config.fpqPkRangeChecked
      (values 0x7FF8000000000000 0x4014000000000000 0x3FF0000000000000))) =
    some { Response.blank with status := .invalidOperand, lmask := 0b100 } := by decide +kernel

/-- 95_test_vectors.md 2.5, row 1. -/
theorem test_unpack_accepted :
    responseOf (exec (.unpack 10) (readyState Config.fpqPkWrap (packet 0x000001FFFF7FFF0A))) =
    some { Response.blank with
      status := .accepted, vx := 0x408F212DAB9F559B, vy := 0x408F212D42C3C9EF, vz := 0x408F3B6425AEE632,
      sx := 0x00980001, sy := 0x0097FFFF, sz := 0x00987FFF } := by decide +kernel

/-- 95_test_vectors.md 2.5, row 6: one lane unknown, the others delivered. -/
theorem test_unpack_unknown :
    responseOf (exec (.unpack 5) (readyState Config.fpqPkRangeChecked (packet 0x0080000000000105))) =
    some { Response.blank with
      status := .unknownCode, lmask := 0b100, vz := 0x3F1A36E2EB1C432D, sz := 1 } := by decide +kernel

/-- 95_test_vectors.md P4, line 1: an illegal word with READY = 0 answers ILLEGAL_COMMAND, not NOT_READY. -/
theorem test_step_illegal :
    (match step (State.reset.withFetchWord 32 0x104) with
      | .next s => s.log == [{ Response.blank with status := .illegalCommand }] && !s.ready && !s.busy
      | _ => false) = true := by decide

/-- 30_encoding.md R71, 70_reset_and_hazards.md R211: an edge accepts, an edge with `rst` does not. -/
theorem test_edges :
    (match clockEdge { rst := false, cmdValid := true, req := packet 7, rspReady := false } State.reset with
      | .next s => s.busy && s.req == packet 7
      | _ => false) = true ∧
    (match clockEdge { rst := true, cmdValid := true, req := packet 7, rspReady := false } State.reset with
      | .next s => !s.busy
      | _ => false) = true := by decide

/-! ### Assembly (30_encoding.md R73, R74; 95_test_vectors.md P2, P4) -/

theorem test_asm_pack :
    (parseLine ['P', 'A', 'C', 'K', ' ', '1', '0', ',', ' ', '-', '2', '3', '4', '5', '.', '6', '7', '8', '9', ',',
      '-', '0', '.', '0', ',', 'i', 'n', 'f', ' ', ';', 'x']).map (Option.map assemble) =
    some (some
      { cmd := 0x00000A02, opx := 0xC0A2535B98C7E282, opy := 0x8000000000000000, opz := 0x7FF0000000000000,
        pktIn := 0 }) := by decide +kernel

theorem test_asm_unpack :
    (parseLine ['U', 'N', 'P', 'A', 'C', 'K', ' ', '0', 'x', '0', 'B', ',', ' ', '0', 'x', 'F', 'F', '0', '1']).map
      (Option.map assemble) = some (some { Request.zero with cmd := 0x00000B03, pktIn := 0xFF01 }) := by decide +kernel

/-! ### Witnesses: a state and operands that meet the hypotheses of each statement -/

/-- An idle state whose host offers one command. -/
def offering (r : Request) : State := { State.reset with host := [.command r] }

/-- A busy state with PACK in flight, not run yet, whose host offers another command. -/
def inFlight : State :=
  { State.reset with busy := true, req := { Request.zero with cmd := 2 }, host := [.command (packet 1), .reset] }

/-- A busy state that offers its response. -/
def responding : State := { inFlight with rspValid := true, rsp := { Response.blank with status := .notReady } }

theorem witness_DecodeInvertsEncode : (Instr.pack 255).wellFormed = true ∧ decodeCmd 0x0000FF02 = .ok (.pack 255) :=
  ⟨rfl, rfl⟩

theorem witness_IllegalWordsAnswerIllegalCommand :
    decodeCmd { packet 1 with cmd := 0x00010002 }.cmd = .error .nonzeroRsv1 ∧ decodeCmd 0x00000011 = .error .nonzeroRsv0 ∧
    decodeCmd 0x00000101 = .error .initWithTag ∧ decodeCmd 0 = .error .reservedOpcode ∧
    decodeCmd 4 = .error .reservedOpcode := ⟨rfl, rfl, rfl, rfl, rfl⟩

theorem witness_ResetEventEffect : { responding with host := [.reset] }.host = .reset :: [] := rfl

theorem witness_ResetEndsCommandWithoutResponse :
    (∃ t, resetComesNext { responding with host := [.reset] } ∧ step { responding with host := [.reset] } = .next t) ∧
    ∃ p t, resetComesNext { inFlight with host := [.edge p] } ∧ step { inFlight with host := [.edge p] } = .next t :=
  ⟨⟨_, .inl ⟨[], rfl⟩, rfl⟩, ⟨true, false, packet 0, false⟩, _, .inr ⟨_, [], rfl, rfl⟩, rfl⟩

theorem witness_StepKeepsGood : ∃ s t, s.good ∧ s.ready = true ∧ s.host ≠ [] ∧ step s = .next t := by
  refine ⟨{ readyState Config.fpqPkWrap Request.zero with host := [.command { packet 1 with cmd := 0x103 }] }, _,
    ⟨?_, ?_, ?_, ?_, ?_⟩, rfl, by simp, rfl⟩
  · exact wf_builtTable _
  · intro _; rfl
  · decide
  · intro h; exact absurd h (by decide)
  · intro r h; exact absurd h (by simp [readyState])

theorem witness_StepRunsDecodedInstruction :
    ((offering { packet 1 with cmd := 3 }).host = .command { packet 1 with cmd := 3 } :: [] ∧
      (offering { packet 1 with cmd := 3 }).busy = false ∧
      decodeCmd { packet 1 with cmd := 3 }.cmd = .ok (.unpack 0)) ∧
    (inFlight.host = .command (packet 1) :: [.reset] ∧ inFlight.busy = true ∧ inFlight.rspValid = false ∧
      decodeCmd inFlight.req.cmd = .ok (.pack 0)) ∧
    decodeTableWord 32 1 = some .init := ⟨⟨rfl, rfl, rfl⟩, ⟨rfl, rfl, rfl, rfl⟩, rfl⟩

theorem witness_IdleStepKeepsState : State.reset.host = [] := rfl

theorem witness_TransactionGivesOneResponse :
    (offering (packet 1)).host = .command (packet 1) :: [] ∧ (offering (packet 1)).busy = false := ⟨rfl, rfl⟩

theorem witness_BusyBlockKeepsOfferWaiting :
    (∃ t, inFlight.host = .command (packet 1) :: [.reset] ∧ inFlight.busy = true ∧ step inFlight = .next t) ∧
    ∃ p t, responding.busy = true ∧ Pins.rst p = false ∧ clockEdge p responding = .next t :=
  ⟨⟨_, rfl, rfl, rfl⟩, ⟨false, true, packet 3, true⟩, _, rfl, rfl, rfl⟩

theorem witness_ConfigurationNeverChanges : ∃ t, step { responding with host := [.reset] } = .next t := ⟨_, rfl⟩

theorem witness_TableWrittenOnlyByFirstInit :
    ∃ t, step (State.reset.withFetchWord 32 1) = .next t ∧ t.table ≠ (State.reset.withFetchWord 32 1).table :=
  ⟨_, rfl, by decide⟩

theorem witness_ReadyChangesOnlyByInitOrReset :
    (∃ t, step (State.reset.withFetchWord 32 1) = .next t ∧ t.ready = true) ∧
    ∃ t, step { readyState Config.fpqPkWrap (packet 0) with host := [.reset] } = .next t ∧ t.ready = false :=
  ⟨⟨_, rfl, rfl⟩, _, rfl, rfl⟩

theorem witness_ResponsesAreDisciplined : ∃ t, runCommand inFlight = .next t := ⟨_, rfl⟩

theorem witness_InitBuildsTableAndSetsReady : State.reset.ready = false ∧ State.reset.table.wf = true := ⟨rfl, rfl⟩

theorem witness_InitWhenReadyOnlyAnswersOk : (readyState Config.fpqPkWrap (packet 0)).ready = true := rfl

theorem witness_BuildTableMatchesClosedForm : (builtTable Config.fpqPkRangeChecked).wf = true := by decide

theorem witness_WrapTableHoldsGreatestOfClass :
    Config.fpqPkWrap.policy = .wrap ∧ Table.empty.wf = true ∧ Config.fpqPkWrap.enumLo = -9999999 ∧
      Config.fpqPkWrap.enumHi = 9999999 := ⟨rfl, rfl, rfl, rfl⟩

theorem witness_RangeCheckedTableIsSignedCode :
    Config.fpqPkRangeChecked.policy = .rangeChecked ∧ Config.fpqPkRangeChecked.rangeBound = 32767 ∧
      Table.empty.wf = true := ⟨rfl, rfl, rfl⟩

/-- A state that holds a given table, in which UNPACK completes. -/
theorem unpack_next_with_table (u : Table) (rx : W8) : ∃ s t : State, s.table = u ∧ exec (.unpack rx) s = .next t :=
  ⟨{ State.reset with ready := true, table := u }, (exec_next _ _).choose, rfl, (exec_next _ _).choose_spec⟩

theorem witness_DefaultTableProperties :
    Table.empty.wf = true ∧ ∃ s t : State, s.table = buildTable Config.fpqPkWrap Table.empty ∧
      exec (.unpack 3) s = .next t :=
  ⟨rfl, unpack_next_with_table _ _⟩

theorem witness_ScaledIntegerRoundsHalfAway :
    Binary64.isFinite 0xBFE0000000000000 = true ∧ Binary64.isFinite (scaledProduct 0xBF0A36E2EB1C432D) = true := by
  decide +kernel

/-- A tie, `2^53 + 1`, between `2^53` and `2^53 + 2`. -/
theorem witness_Rne64IsNearestEven :
    0 < 1 ∧ Binary64.isFinite (Binary64.rne64 false (2 ^ 53 + 1) 1) = true ∧
    Binary64.isFinite 0x4340000000000001 = true ∧
    |Binary64.val (Binary64.rne64 false (2 ^ 53 + 1) 1) - signedRat false (2 ^ 53 + 1) 1| =
      |Binary64.val 0x4340000000000001 - signedRat false (2 ^ 53 + 1) 1| ∧
    Binary64.val 0x4340000000000001 ≠ Binary64.val (Binary64.rne64 false (2 ^ 53 + 1) 1) := by decide +kernel

theorem witness_Rne64OverflowsToInfinity :
    0 < 1 ∧ Binary64.isInf (Binary64.rne64 true ((2 ^ 1024 - 2 ^ 970) * 1) 1) = true ∧
    Binary64.isInf (Binary64.rne64 true ((2 ^ 1024 - 2 ^ 970) * 1 - 1) 1) = false := by decide +kernel

theorem witness_MultiplyByOneIsIdentity :
    Binary64.isFinite 0x8000000000000001 = true ∧ Binary64.isFinite 0x7FEFFFFFFFFFFFFF = true := by decide +kernel

theorem witness_WrapTruncatesToLow16Bits :
    Config.fpqPkWrap.policy = .wrap ∧ Binary64.isFinite 0x4014000000000000 = true ∧
      Binary64.isFinite (scaledProduct 0x4014000000000000) = true := by decide +kernel

theorem witness_RangeCheckRejectsBeyondBound :
    Config.fpqPkRangeChecked.policy = .rangeChecked ∧ Binary64.isFinite 0x400A36E2EB1C432D = true ∧
    Binary64.isFinite (scaledProduct 0x400A36E2EB1C432D) = true ∧ scaledInteger 0x400A36E2EB1C432D = 32768 ∧
    Binary64.isFinite 0x400A36AE7D566CF4 = true ∧ Binary64.isFinite (scaledProduct 0x400A36AE7D566CF4) = true ∧
    scaledInteger 0x400A36AE7D566CF4 = 32767 := by decide +kernel

theorem witness_AliasedValuesShareCode :
    Config.fpqPkWrap.policy = .wrap ∧ Binary64.isFinite 0 = true ∧ Binary64.isFinite (scaledProduct 0) = true ∧
    Binary64.isFinite 0x401A36E2EB1C432D = true ∧ Binary64.isFinite (scaledProduct 0x401A36E2EB1C432D) = true ∧
    scaledInteger 0 % 65536 = scaledInteger 0x401A36E2EB1C432D % 65536 ∧ |(-32767 : Int)| ≤ 32767 := by decide +kernel

theorem witness_LargeProductsHaveCodeZero :
    Binary64.isFinite 0x7E37E43C8800759C = true ∧ Binary64.isFinite (scaledProduct 0x7E37E43C8800759C) = true ∧
    (2 : ℚ) ^ 68 ≤ |Binary64.val (scaledProduct 0x7E37E43C8800759C)| := by decide +kernel

theorem witness_EnumeratedValuesEncodeToTheirCode :
    Config.fpqPkWrap.policy = .wrap ∧ (-9999999 : Int) ≤ -9999999 ∧ (9999999 : Int) ≤ 9999999 := by decide

theorem witness_DecodedFieldsHoldEntry :
    Config.fpqPkRangeChecked.wellFormed = true ∧ (builtTable Config.fpqPkRangeChecked).read 0x8001 = some (-32767) ∧
    (builtTable Config.fpqPkRangeChecked).read 0 = some 0 := by decide

theorem witness_WrapRoundTripExactlyOnTopClass :
    Config.fpqPkWrap.policy = .wrap ∧ Binary64.isFinite 0x408F3FFFCB923A2A = true ∧
    encodeValue Config.fpqPkWrap 0x408F3FFFCB923A2A = .code 0x967F ∧
    scaledInteger 0x408F0B923A29C77A = 9934464 ∧ encodeValue Config.fpqPkWrap 0x408F0B9205BC01A3 = .code 0x967F ∧
    scaledInteger 0x408F0B9205BC01A3 = 9934463 := by decide +kernel

theorem witness_RangeCheckedRoundTripIsExact :
    Config.fpqPkRangeChecked.policy = .rangeChecked ∧ Config.fpqPkRangeChecked.rangeBound = 32767 ∧
    (-32767 : Int) ≤ -32767 ∧ (32767 : Int) ≤ 32767 := by decide

theorem witness_PacketExtractionIgnoresTopByte :
    (0xFF00000000000001 : W64).extractLsb' 0 56 = (0x0000000000000001 : W64).extractLsb' 0 56 := by decide

theorem witness_NotReadyRefusesPackAndUnpack : State.reset.ready = false := rfl

/-- The state of the PACK witnesses. -/
def packing (cfg : Config) (x y z : W64) : State := readyState cfg (values x y z)

theorem witness_PackComposesPacket :
    (packing Config.fpqPkWrap 0x3F1A36E2EB1C432D 0xBF1A36E2EB1C432D 0x400A36AE7D566CF4).ready = true ∧
    encodeValue Config.fpqPkWrap 0x3F1A36E2EB1C432D = .code 1 ∧
    encodeValue Config.fpqPkWrap 0xBF1A36E2EB1C432D = .code 0xFFFF ∧
    encodeValue Config.fpqPkWrap 0x400A36AE7D566CF4 = .code 0x7FFF := by decide +kernel

theorem witness_PackMarksInvalidLanes :
    (packing Config.fpqPkWrap 0x8000000000000000 0x401A36E2EB1C432D 0x7FF0000000000000).ready = true ∧
    encodeValue Config.fpqPkWrap 0x7FF0000000000000 = .invalid := by decide +kernel

theorem witness_PackMarksUnrepresentableLanes :
    (packing Config.fpqPkRangeChecked 0x4014000000000000 0x4014000000000000 0x3FF0000000000000).ready = true ∧
    encodeValue Config.fpqPkRangeChecked 0x4014000000000000 = .unrep ∧
    encodeValue Config.fpqPkRangeChecked 0x3FF0000000000000 ≠ .invalid := by decide +kernel

theorem witness_PackedTopByteIsZero :
    ∃ t, exec (.pack 10) (packing Config.fpqPkWrap 0x3FF0000000000000 0 0) = .next t ∧ t.rsp.status = .ok :=
  ⟨(exec_next _ _).choose, (exec_next _ _).choose_spec, by
    have h := (exec_next (.pack 10) (packing Config.fpqPkWrap 0x3FF0000000000000 0 0)).choose_spec
    have hr : responseOf (exec (.pack 10) (packing Config.fpqPkWrap 0x3FF0000000000000 0 0)) =
        some { Response.blank with pkt := 0x002710000000000A } := by decide +kernel
    rw [h] at hr
    exact congrArg (fun r => (Option.getD r Response.blank).status) hr⟩

/-- A next state whose response is the one computed. -/
theorem next_of_response {i : Instr} {s : State} {r : Response} (h : responseOf (exec i s) = some r) :
    ∃ t, exec i s = .next t ∧ t.rsp = r := by
  obtain ⟨t, ht⟩ := exec_next i s
  rw [ht] at h
  exact ⟨t, ht, by simpa [responseOf] using h⟩

theorem witness_LanesAreIndependent :
    ∃ t t', exec (.pack 10) (packing Config.fpqPkWrap 0x3FF0000000000000 0 0) = .next t ∧ t.rsp.status = .ok ∧
      t'.rsp.status = .ok ∧
      exec (.pack 10)
        { packing Config.fpqPkWrap 0x3FF0000000000000 0 0 with
          req := { (packing Config.fpqPkWrap 0x3FF0000000000000 0 0).req with opy := 0x4014000000000000 } } = .next t' ∧
      (∃ v, exec (.unpack 10) { readyState Config.fpqPkWrap (packet 0) with
        req := { (readyState Config.fpqPkWrap (packet 0)).req with pktIn := t.rsp.pkt } } = .next v) ∧
      ∃ v', exec (.unpack 10) { readyState Config.fpqPkWrap (packet 0) with
        req := { (readyState Config.fpqPkWrap (packet 0)).req with pktIn := t'.rsp.pkt } } = .next v' := by
  obtain ⟨t, ht, hr⟩ := next_of_response (i := .pack 10) (s := packing Config.fpqPkWrap 0x3FF0000000000000 0 0)
    (r := { Response.blank with pkt := 0x002710000000000A }) (by decide +kernel)
  obtain ⟨t', ht', hr'⟩ := next_of_response (i := .pack 10)
    (s := { packing Config.fpqPkWrap 0x3FF0000000000000 0 0 with
      req := { (packing Config.fpqPkWrap 0x3FF0000000000000 0 0).req with opy := 0x4014000000000000 } })
    (r := { Response.blank with pkt := 0x002710C35000000A }) (by decide +kernel)
  exact ⟨t, t', ht, by rw [hr]; rfl, by rw [hr']; rfl, ht', exec_next _ _, exec_next _ _⟩

theorem witness_IgnoredPortsHaveNoEffect :
    (packet 9).opx = State.reset.req.opx ∧ (packet 9).opy = State.reset.req.opy ∧
    (packet 9).opz = State.reset.req.opz ∧ (values 1 2 3).pktIn = State.reset.req.pktIn := ⟨rfl, rfl, rfl, rfl⟩

theorem witness_PackAndUnpackWriteOnlyResponse :
    ∃ t, exec (.pack 1) (readyState Config.fpqPkWrap (packet 1)) = .next t ∨
      exec (.unpack 1) (readyState Config.fpqPkWrap (packet 1)) = .next t :=
  ⟨_, .inl (exec_next _ _).choose_spec⟩

theorem witness_PackAndUnpackAreIdempotent :
    (∃ t, exec (.pack 1) (readyState Config.fpqPkWrap (packet 1)) = .next t) ∧
    ∃ t, exec (.unpack 1) (readyState Config.fpqPkWrap (packet 1)) = .next t := ⟨exec_next _ _, exec_next _ _⟩

theorem witness_UnpackDecodesMatchingPacket :
    (readyState Config.fpqPkWrap (packet 0x000001FFFF7FFF0A)).ready = true ∧
    (0x000001FFFF7FFF0A : W64).extractLsb' 0 8 = (10 : W8) ∧
    (builtTable Config.fpqPkWrap).read ((0x000001FFFF7FFF0A : W64).extractLsb' 40 16) = some 9961473 ∧
    (builtTable Config.fpqPkWrap).read ((0x000001FFFF7FFF0A : W64).extractLsb' 24 16) = some 9961471 ∧
    (builtTable Config.fpqPkWrap).read ((0x000001FFFF7FFF0A : W64).extractLsb' 8 16) = some 9994239 := by decide

theorem witness_UnpackMarksUnknownLanes :
    (readyState Config.fpqPkRangeChecked (packet 0x0080000000000105)).ready = true ∧
    (0x0080000000000105 : W64).extractLsb' 0 8 = (5 : W8) ∧
    (builtTable Config.fpqPkRangeChecked).read ((0x0080000000000105 : W64).extractLsb' 40 16) = none ∧
    (builtTable Config.fpqPkRangeChecked).read ((0x0080000000000105 : W64).extractLsb' 24 16) = some 0 ∧
    (builtTable Config.fpqPkRangeChecked).read ((0x0080000000000105 : W64).extractLsb' 8 16) = some 1 := by decide

theorem witness_UnpackRejectsOtherAddress :
    (readyState Config.fpqPkWrap (packet 0x0A)).ready = true ∧ (packet 0x0A).pktIn.extractLsb' 0 8 ≠ (0x0B : W8) := by
  decide

theorem witness_UnpackFiltersByAddress :
    (readyState Config.fpqPkWrap (packet 0x0A)).ready = true ∧
    (∃ t, exec (.unpack 10) (readyState Config.fpqPkWrap (packet 0x0A)) = .next t) ∧
    (packet 0x0A).pktIn.toNat % 256 = (10 : W8).toNat ∧
    (∃ t, exec (.unpack 25) (readyState Config.fpqPkWrap (packet 0x0A)) = .next t) ∧
    (packet 0x0A).pktIn.toNat % 256 ≠ (25 : W8).toNat :=
  ⟨rfl, exec_next _ _, rfl, exec_next _ _, by decide⟩

theorem witness_PortLevelRefinesTransaction :
    ∃ (r : Request) (acceptPins takePins : Pins) (waits holds : List Pins),
      State.reset.busy = false ∧ acceptPins.rst = false ∧ acceptPins.cmdValid = true ∧ acceptPins.req = r ∧
      (∀ p ∈ waits, p.rst = false) ∧ waits.length = latency (accept r State.reset) ∧
      (∀ p ∈ holds, p.rst = false ∧ p.rspReady = false) ∧ holds ≠ [] ∧ takePins.rst = false ∧
      takePins.rspReady = true := by
  refine ⟨{ packet 1 with cmd := 1 }, ⟨false, true, { packet 1 with cmd := 1 }, false⟩, ⟨false, false, packet 0, true⟩,
    List.replicate (latency (accept { packet 1 with cmd := 1 } State.reset)) ⟨false, true, packet 3, true⟩,
    [⟨false, true, packet 3, false⟩], rfl, rfl, rfl, rfl, ?_, List.length_replicate, ?_, by simp, rfl, rfl⟩
  · intro p hp
    rw [List.eq_of_mem_replicate hp]
  · intro p hp
    rw [List.mem_singleton.mp hp]
    exact ⟨rfl, rfl⟩

theorem witness_OfferedResponseStaysStable :
    responding.busy = true ∧ responding.rspValid = true ∧
    Pins.rst ⟨false, true, packet 3, false⟩ = false ∧ Pins.rspReady ⟨false, true, packet 3, false⟩ = false :=
  ⟨rfl, rfl, rfl, rfl⟩

theorem witness_BuildInvisibleUntilResponse :
    (∃ p t, Pins.rst p = false ∧ clockEdge p responding = .next t ∧ t.rspValid = false) ∧
    ∃ t, (readyState Config.fpqPkWrap (packet 0)).good ∧
      exec .init (readyState Config.fpqPkWrap (packet 0)) = .next t := by
  refine ⟨⟨⟨false, true, packet 3, true⟩, _, rfl, rfl, rfl⟩, _, ⟨wf_builtTable _, fun _ => rfl, by decide, ?_, ?_⟩, rfl⟩
  · intro h; exact absurd h (by decide)
  · intro r h; exact absurd h (by simp [readyState])

end Sys2Proof.Tests
end

section
/-! PROOFS. The scaled integer (00_scope.md R12, 41_codec.md R105): RHA's integer arithmetic against RHA on exact
rationals. -/

namespace Sys2Proof.Machine

theorem rhaRat_zero : rhaRat 0 = 0 := by norm_num [rhaRat]

/-- RHA works on the magnitude alone and puts the sign back; a zero of either sign gives 0. -/
theorem rhaRat_signed (neg : Bool) {q : ℚ} (hq : 0 ≤ q) :
    rhaRat ((if neg then -1 else 1) * q) = (if neg then -1 else 1) * ⌊q + 1 / 2⌋ := by
  cases neg with
  | false => simp [rhaRat, not_lt.mpr hq]
  | true =>
    rcases hq.eq_or_lt with rfl | hpos
    · norm_num [rhaRat]
    · simp [rhaRat, hpos]

end Sys2Proof.Machine

namespace Sys2Proof.Machine.Binary64

/-- The magnitude that `rha` computes from a significand `m` and the exponent `u` of its unit. -/
def rhaMag (m : Nat) (u : Int) : Nat :=
  if 0 ≤ u then m * 2 ^ u.toNat else (2 * m + 2 ^ (-u).toNat) / 2 ^ ((-u).toNat + 1)

theorem rha_eq_rhaMag (b : W64) :
    rha b = (if sign b then -1 else 1) * (rhaMag (significand b) (unitExp b) : Int) := by
  have hdef : rha b = if sign b then -(rhaMag (significand b) (unitExp b) : Int)
      else rhaMag (significand b) (unitExp b) := rfl
  rw [hdef, ite_mul, neg_one_mul, one_mul]

/-- A unit of at least 1 makes the magnitude an integer, which the added half does not move. -/
theorem floor_rhaMag_natCast (m n : Nat) : ⌊(m : ℚ) * 2 ^ (n : Int) + 1 / 2⌋ = rhaMag m n := by
  have hmag : rhaMag m n = m * 2 ^ n := by simp [rhaMag]
  have hint : (m : ℚ) * 2 ^ (n : Int) = ((m * 2 ^ n : Nat) : ℚ) := by push_cast; rw [zpow_natCast]
  have hhalf : ⌊(1 / 2 : ℚ)⌋ = 0 := by norm_num
  rw [hmag, hint, Int.floor_natCast_add, hhalf, add_zero]

/-- A unit of `2^-k` makes the magnitude plus a half the fraction `(2 m + 2^k) / 2^(k+1)`. -/
theorem floor_rhaMag_neg (m k : Nat) (hk : 0 < k) : ⌊(m : ℚ) * 2 ^ (-(k : Int)) + 1 / 2⌋ = rhaMag m (-k) := by
  have hmag : rhaMag m (-k) = (2 * m + 2 ^ k) / 2 ^ (k + 1) := by
    rw [rhaMag, if_neg (by omega)]; simp
  have hfrac : (m : ℚ) * 2 ^ (-(k : Int)) + 1 / 2 = ((2 * m + 2 ^ k : Nat) : ℚ) / ((2 ^ (k + 1) : Nat) : ℚ) := by
    push_cast
    rw [zpow_neg, zpow_natCast, pow_succ]
    field_simp
  rw [hmag, hfrac, Rat.floor_natCast_div_natCast, Int.natCast_ediv]

/-- `rhaMag` is the exact magnitude rounded to nearest, a half going up. -/
theorem floor_add_half_eq_rhaMag (m : Nat) (u : Int) : ⌊(m : ℚ) * 2 ^ u + 1 / 2⌋ = rhaMag m u := by
  rcases le_or_gt 0 u with h | h
  · obtain ⟨n, rfl⟩ := Int.eq_ofNat_of_zero_le h
    exact floor_rhaMag_natCast m n
  · obtain ⟨k, rfl⟩ : ∃ k : Nat, u = -k := ⟨(-u).toNat, by omega⟩
    exact floor_rhaMag_neg m k (by omega)

/-- R12: `rha` is RHA of the exact value. Nothing in it needs the pattern to be finite: `val` reads every pattern's
fields the way `rha` does. -/
theorem rha_eq_rhaRat_val (b : W64) : rha b = rhaRat (val b) := by
  have hmag : (0 : ℚ) ≤ (significand b : ℚ) * 2 ^ unitExp b := by positivity
  rw [rha_eq_rhaMag, val, mul_assoc, rhaRat_signed _ hmag, floor_add_half_eq_rhaMag]

/-- The pattern of `-0.0` has the value 0. -/
theorem val_negZero : val 0x8000000000000000 = 0 := by
  have hsig : significand 0x8000000000000000 = 0 := by decide
  rw [val, hsig, Nat.cast_zero, mul_zero, zero_mul]

end Sys2Proof.Machine.Binary64

namespace Sys2Proof.Machine

/-- Settles O25: `rha` is RHA of the exact value, at `-0.0` and at the scaled product as everywhere. -/
theorem scaledIntegerRoundsHalfAway : Obligations.ScaledIntegerRoundsHalfAway := by
  refine ⟨fun b _ => Binary64.rha_eq_rhaRat_val b, ?_, fun v _ => Binary64.rha_eq_rhaRat_val (scaledProduct v)⟩
  rw [Binary64.rha_eq_rhaRat_val, Binary64.val_negZero, rhaRat_zero]

end Sys2Proof.Machine
end

section
/-! PROOFS. The packet word as its ranges appended (42_packet.md R141 to R143), and its byte view (20_memory.md R42,
R43). -/

namespace Sys2Proof.Machine

/-- Shifting one range up and or-ing the next one in, both zero-extended, is appending the two. -/
theorem shiftLeft_or_setWidth {v w : Nat} (n : Nat) (hi : BitVec v) (lo : BitVec w) :
    (hi.setWidth n <<< w) ||| lo.setWidth n = (hi ++ lo).setWidth n := by
  ext i hn
  by_cases h : i < w
  · simp [BitVec.getElem_shiftLeft, BitVec.getLsbD_append, h]
  · simp [BitVec.getElem_shiftLeft, BitVec.getLsbD_append, h, BitVec.getLsbD_of_ge lo i (not_lt.mp h)]

/-- A range of a range, both given by their lowest bit and their width. -/
theorem extractLsb'_extractLsb' {n start len start' len' : Nat} (w : BitVec n) (h : start' + len' ≤ len) :
    (w.extractLsb' start len).extractLsb' start' len' = w.extractLsb' (start + start') len' := by
  ext i hi
  have hlt : start' + i < len := by omega
  simp [hlt, Nat.add_assoc]

/-- R141: the composite is the three codes appended, X on top. -/
theorem composite_eq_append (c : Lanes W16) : composite c = (c.x ++ c.y ++ c.z).setWidth 64 := by
  rw [composite, ← shiftLeft_or_setWidth, ← shiftLeft_or_setWidth, BitVec.shiftLeft_or_distrib, ← BitVec.shiftLeft_add]

/-- R142: the packet word is the three codes and the tag appended, below a byte of zeros. -/
theorem packetWord_eq_append (addr : W8) (c : Lanes W16) :
    packetWord addr (composite c) = (c.x ++ c.y ++ c.z ++ addr).setWidth 64 := by
  rw [packetWord, composite_eq_append, shiftLeft_or_setWidth]

@[simp] theorem packetAddr_packetWord (addr : W8) (c : Lanes W16) :
    packetAddr (packetWord addr (composite c)) = addr := by
  rw [packetAddr, packetWord_eq_append, BitVec.extractLsb'_setWidth_of_le (by decide), BitVec.extractLsb'_append_eq_right]

@[simp] theorem packetCodes_packetWord (addr : W8) (c : Lanes W16) :
    packetCodes (packetWord addr (composite c)) = c := by
  have hx : (c.x ++ c.y ++ c.z ++ addr).extractLsb' 40 16 = c.x := by
    rw [BitVec.extractLsb'_append_eq_of_le (by decide), BitVec.extractLsb'_append_eq_of_le (by decide),
      BitVec.extractLsb'_append_eq_left]
  have hy : (c.x ++ c.y ++ c.z ++ addr).extractLsb' 24 16 = c.y := by
    rw [BitVec.extractLsb'_append_eq_of_le (by decide), BitVec.extractLsb'_append_eq_of_le (by decide),
      BitVec.extractLsb'_append_eq_right]
  have hz : (c.x ++ c.y ++ c.z ++ addr).extractLsb' 8 16 = c.z := by
    rw [BitVec.extractLsb'_append_eq_of_le (by decide), BitVec.extractLsb'_append_eq_right]
  simp only [packetCodes, packetWord_eq_append]
  rw [BitVec.extractLsb'_setWidth_of_le (by decide), BitVec.extractLsb'_setWidth_of_le (by decide),
    BitVec.extractLsb'_setWidth_of_le (by decide), hx, hy, hz]

theorem toNat_packetByte (w : W64) (k : Nat) : (packetByte w k).toNat = w.toNat / 2 ^ (8 * k) % 256 := by
  rw [packetByte, BitVec.extractLsb'_toNat, Nat.shiftRight_eq_div_pow]

/-- R148: nothing of a composed packet word reaches its top byte. -/
theorem packetByte_packetWord_top (addr : W8) (c : Lanes W16) : packetByte (packetWord addr (composite c)) 7 = 0 := by
  apply BitVec.eq_of_toNat_eq
  rw [toNat_packetByte, packetWord_eq_append, BitVec.toNat_setWidth_of_le (by decide),
    Nat.div_eq_of_lt (BitVec.isLt _)]
  rfl

/-- R43: the bytes of any packet word, the low byte of each code first. -/
theorem packetBytes_eq (w : W64) :
    packetBytes w =
      [packetAddr w, (packetCodes w).z.extractLsb' 0 8, (packetCodes w).z.extractLsb' 8 8,
        (packetCodes w).y.extractLsb' 0 8, (packetCodes w).y.extractLsb' 8 8,
        (packetCodes w).x.extractLsb' 0 8, (packetCodes w).x.extractLsb' 8 8, packetByte w 7] := by
  simp [packetBytes, packetByte, packetAddr, packetCodes, extractLsb'_extractLsb', List.range_succ]

/-- R43: a 16-bit read is the two neighbouring bytes, the higher one on top. -/
theorem packetByte_append_packetByte (w : W64) (k : Nat) :
    packetByte w (k + 1) ++ packetByte w k = w.extractLsb' (8 * k) 16 :=
  BitVec.extractLsb'_append_extractLsb'_eq_extractLsb' (Nat.mul_succ 8 k)

/-- `n` bytes in a row, from byte `k` on, put the `8 n` bits from bit `8 k` on back together. -/
theorem packetOfBytes_map_packetByte (w : W64) (k n : Nat) :
    packetOfBytes ((List.range' k n).map (packetByte w)) = (w.extractLsb' (8 * k) (8 * n)).setWidth 64 := by
  induction n generalizing k with
  | zero => simp [packetOfBytes]
  | succ n ih =>
    rw [List.range'_succ, List.map_cons, packetOfBytes, ih, shiftLeft_or_setWidth, packetByte,
      BitVec.extractLsb'_append_extractLsb'_eq_extractLsb' (Nat.mul_succ 8 k)]
    rfl

/-- R42: the byte view loses nothing. -/
theorem packetOfBytes_packetBytes (w : W64) : packetOfBytes (packetBytes w) = w := by
  rw [packetBytes, List.range_eq_range', packetOfBytes_map_packetByte, Nat.mul_zero, BitVec.extractLsb'_eq_self,
    BitVec.setWidth_eq]

/-- Settles O40: the byte view of any word in terms of its tag and codes, at a word whose tag and codes are those it was
composed of. -/
theorem packetByteView : Obligations.PacketByteView := by
  refine ⟨fun addr c => ?_, toNat_packetByte, packetOfBytes_packetBytes⟩
  have hcodes := packetCodes_packetWord addr c
  refine ⟨?_, ?_, ?_, ?_⟩
  · rw [packetBytes_eq, hcodes, packetAddr_packetWord, packetByte_packetWord_top]
  · exact (packetByte_append_packetByte _ 1).trans (congrArg Lanes.z hcodes)
  · exact (packetByte_append_packetByte _ 3).trans (congrArg Lanes.y hcodes)
  · exact (packetByte_append_packetByte _ 5).trans (congrArg Lanes.x hcodes)

end Sys2Proof.Machine
end

section
/-! PROOFS. Command words as numbers (30_encoding.md R61, R74), the illegal ones and their transaction (R69,
60_exceptions.md R183), and the words of assembly lines. -/

namespace Sys2Proof

/-! ### The fields of a command word (R61) -/

theorem toNat_opField (w : W32) : (opField w).toNat = w.toNat % 16 := by
  rw [opField, BitVec.extractLsb'_toNat, Nat.shiftRight_zero]

theorem toNat_rsv0Field (w : W32) : (rsv0Field w).toNat = w.toNat / 16 % 16 := by
  rw [rsv0Field, BitVec.extractLsb'_toNat, Nat.shiftRight_eq_div_pow]

theorem toNat_tagField (w : W32) : (tagField w).toNat = w.toNat / 256 % 256 := by
  rw [tagField, BitVec.extractLsb'_toNat, Nat.shiftRight_eq_div_pow]

/-- `RSV1` reaches to the top of the word, so nothing is cut off above it. -/
theorem toNat_rsv1Field (w : W32) : (rsv1Field w).toNat = w.toNat / 65536 := by
  rw [rsv1Field, BitVec.extractLsb'_toNat, Nat.shiftRight_eq_div_pow]
  exact Nat.mod_eq_of_lt (Nat.div_lt_of_lt_mul w.isLt)

/-! ### Illegal words (R69) -/

/-- R69: the decoder rejects a word in the rule's four cases and no other. -/
theorem exists_decodeCmd_eq_error_iff (w : W32) :
    (∃ e, decodeCmd w = .error e) ↔
      ((opField w).toNat = 0 ∨ 4 ≤ (opField w).toNat) ∨ rsv0Field w ≠ 0 ∨ rsv1Field w ≠ 0 ∨
        ((opField w).toNat = 1 ∧ tagField w ≠ 0) := by
  unfold decodeCmd
  by_cases h1 : rsv1Field w ≠ 0
  · rw [if_pos h1]
    exact iff_of_true ⟨_, rfl⟩ (.inr (.inr (.inl h1)))
  by_cases h0 : rsv0Field w ≠ 0
  · rw [if_neg h1, if_pos h0]
    exact iff_of_true ⟨_, rfl⟩ (.inr (.inl h0))
  rw [if_neg h1, if_neg h0]
  split
  case h_1 hop =>
    by_cases ht : tagField w ≠ 0
    · rw [if_pos ht]
      exact iff_of_true ⟨_, rfl⟩ (.inr (.inr (.inr ⟨hop, ht⟩)))
    · rw [if_neg ht]
      exact iff_of_false nofun (by simp only [hop]; tauto)
  case h_2 hop => exact iff_of_false nofun (by simp only [hop]; tauto)
  case h_3 hop => exact iff_of_false nofun (by simp only [hop]; tauto)
  case h_4 hinit hpack hunpack => exact iff_of_true ⟨_, rfl⟩ (.inl (by lia))

/-- R69 on the bits of the word. -/
theorem exists_decodeCmd_eq_error_iff_toNat (w : W32) :
    (∃ e, decodeCmd w = .error e) ↔
      (w.toNat % 16 = 0 ∨ 4 ≤ w.toNat % 16) ∨ w.toNat / 16 % 16 ≠ 0 ∨ w.toNat / 65536 ≠ 0 ∨
        (w.toNat % 16 = 1 ∧ w.toNat / 256 % 256 ≠ 0) := by
  simp only [exists_decodeCmd_eq_error_iff, BitVec.toNat_ne, toNat_opField, toNat_rsv0Field, toNat_tagField,
    toNat_rsv1Field, BitVec.ofNat_eq_ofNat, BitVec.toNat_zero]

/-- A word that R69 does not reject is an opcode with the word's own `TAG` above it, 0 under INIT. -/
theorem toNat_of_not_illegal {w : W32} (h : ¬ ∃ e, decodeCmd w = .error e) :
    w.toNat = 1 ∨ w.toNat = 2 + 256 * (tagField w).toNat ∨ w.toNat = 3 + 256 * (tagField w).toNat := by
  rw [exists_decodeCmd_eq_error_iff_toNat] at h
  rw [toNat_tagField]
  omega

/-! ### The words of legal commands (R74) -/

/-- An opcode below a tag shifted up by 8 bits, as a number. -/
theorem toNat_or_shiftLeft_tag (op tag : W8) :
    (op.setWidth 32 ||| (tag.setWidth 32 <<< 8)).toNat = op.toNat + 256 * tag.toNat := by
  rw [BitVec.or_comm, Machine.shiftLeft_or_setWidth, BitVec.toNat_setWidth_of_le (by decide), BitVec.toNat_append,
    ← Nat.shiftLeft_add_eq_or_of_lt op.isLt, Nat.shiftLeft_eq, Nat.add_comm, Nat.mul_comm]

theorem toNat_encodeCmd_pack (tag : W8) : (encodeCmd (.pack tag)).toNat = 2 + 256 * tag.toNat :=
  toNat_or_shiftLeft_tag 2 tag

theorem toNat_encodeCmd_unpack (rx : W8) : (encodeCmd (.unpack rx)).toNat = 3 + 256 * rx.toNat :=
  toNat_or_shiftLeft_tag 3 rx

namespace Machine

/-! ### The transaction of an illegal word (R183) -/

/-- A transaction runs the accepted command, whatever was in flight before, and delivers its response. -/
theorem transact_eq (r : Request) (s : State) : transact r s = mapNext deliver (runCommand (accept r s)) := rfl

/-- R183: the whole next state of a transaction with an illegal word. -/
theorem transact_of_illegal {r : Request} {e : Illegal} (h : decodeCmd r.cmd = .error e) (s : State) :
    transact r s = .next (deliver (raise .illegalCommand 0 (accept r s))) := by
  rw [transact_eq, runCommand_of_illegal (s := accept r s) h, mapNext_next]

/-- Settles O2: the decoder's four cases read as bits, the words they leave, and the transaction of an illegal word. -/
theorem illegalWordsAnswerIllegalCommand : Obligations.IllegalWordsAnswerIllegalCommand := by
  refine ⟨exists_decodeCmd_eq_error_iff_toNat, fun w => ?_, fun r s e h => ?_⟩
  · by_cases hlegal : ∃ e, decodeCmd w = .error e
    · exact .inl hlegal
    · obtain hinit | hpack | hunpack := toNat_of_not_illegal hlegal
      · exact .inr (.inl (BitVec.eq_of_toNat_eq hinit))
      · exact .inr (.inr (.inl ⟨_, hpack⟩))
      · exact .inr (.inr (.inr ⟨_, hunpack⟩))
  · exact ⟨_, transact_of_illegal h s, by simp [Response.blank]⟩

/-! ### Assembly lines (R74) -/

theorem assemble_init_cmd : (assemble .init).cmd = encodeCmd .init := rfl

theorem assemble_pack_cmd (tag : W8) (x y z : AsmValue) :
    (assemble (.pack tag x y z)).cmd = encodeCmd (.pack tag) := rfl

theorem assemble_unpack_cmd (rx : W8) (pkt : W64) : (assemble (.unpack rx pkt)).cmd = encodeCmd (.unpack rx) := rfl

/-- Settles O4: a line's word is its command's word, whose number is the opcode plus the tag shifted up. -/
theorem assemblyGivesCommandWords : Obligations.AssemblyGivesCommandWords := by
  refine ⟨assemble_init_cmd, fun tag x y z => ?_, fun rx pkt => ?_, fun x y z => ?_, fun pkt => ?_⟩
  · rw [assemble_pack_cmd, toNat_encodeCmd_pack]
  · rw [assemble_unpack_cmd, toNat_encodeCmd_unpack]
  · exact BitVec.eq_of_toNat_eq (toNat_encodeCmd_pack 10)
  · exact BitVec.eq_of_toNat_eq (toNat_encodeCmd_unpack 25)

end Machine
end Sys2Proof
end

section
/-! PROOFS. The built table by residue classes (41_codec.md R122, R126, R127): the closed form of an entry against the
greatest enumerated integer of its class, whatever was built over. -/

namespace Sys2Proof

theorem Config.domain_of_wrap {cfg : Config} (h : cfg.policy = .wrap) : cfg.domain = (cfg.enumLo, cfg.enumHi) := by
  rw [Config.domain, h]

theorem Config.domain_of_rangeChecked {cfg : Config} (h : cfg.policy = .rangeChecked) :
    cfg.domain = (-(cfg.rangeBound : Int), (cfg.rangeBound : Int)) := by
  rw [Config.domain, h]

namespace Machine

/-! ### The greatest integer of a class -/

/-- `i` is the greatest integer of `[lo, hi]` in the residue class `c` modulo 65536 (R122). -/
def IsGreatestInClass (lo hi c i : Int) : Prop :=
  lo ≤ i ∧ i ≤ hi ∧ i % 65536 = c ∧ ∀ j : Int, lo ≤ j → j ≤ hi → j % 65536 = c → j ≤ i

/-- The number from which the closed form is computed: no integer of the class up to `hi` is greater. -/
theorem le_topOfClass {hi j : Int} {c : Nat} (hj : j ≤ hi) (hc : j % 65536 = c) :
    j ≤ hi - (hi - (c : Int)) % 65536 := by omega

theorem topOfClass_le (hi : Int) (c : Nat) : hi - (hi - (c : Int)) % 65536 ≤ hi := by omega

theorem topOfClass_emod {hi : Int} {c : Nat} (hc : c < 65536) : (hi - (hi - (c : Int)) % 65536) % 65536 = c := by omega

theorem greatestInClass_eq_some {lo hi i : Int} {c : Nat} (hc : c < 65536) :
    greatestInClass lo hi c = some i ↔ IsGreatestInClass lo hi c i := by
  simp only [greatestInClass, Option.ite_none_right_eq_some, Option.some.injEq]
  constructor
  · rintro ⟨hlo, rfl⟩
    exact ⟨hlo, topOfClass_le hi c, topOfClass_emod hc, fun j _ hj hjc => le_topOfClass hj hjc⟩
  · rintro ⟨hlo, hhi, hic, hmax⟩
    have hle := le_topOfClass hhi hic
    have hlo' := hlo.trans hle
    exact ⟨hlo', (hmax _ hlo' (topOfClass_le hi c) (topOfClass_emod hc)).antisymm hle⟩

theorem greatestInClass_eq_none {lo hi : Int} {c : Nat} (hc : c < 65536) :
    greatestInClass lo hi c = none ↔ ∀ j : Int, lo ≤ j → j ≤ hi → j % 65536 ≠ c := by
  simp only [greatestInClass, ite_eq_right_iff, reduceCtorEq, imp_false]
  constructor
  · intro hempty j hlo hhi hjc
    exact hempty (hlo.trans (le_topOfClass hhi hjc))
  · intro hempty hlo
    exact hempty _ hlo (topOfClass_le hi c) (topOfClass_emod hc)

theorem greatestInClass_of_lt {lo hi : Int} (h : hi < lo) {c : Nat} (hc : c < 65536) :
    greatestInClass lo hi c = none :=
  (greatestInClass_eq_none hc).mpr fun _ hlo hhi => absurd (hlo.trans hhi) (not_le.mpr h)

/-- R122, the default bounds: 9999999 has the code 38527, so the classes above it peak 65536 lower. -/
theorem greatestInClass_default {c : Nat} (hc : c < 65536) :
    greatestInClass (-9999999) 9999999 c = some (if c ≤ 38527 then 9961472 + (c : Int) else 9895936 + (c : Int)) := by
  rw [greatestInClass, if_pos (by omega), Option.some.injEq]
  split <;> omega

/-- R126: between -32767 and 32767 each class but that of 32768 has one integer, its code read in two's complement. -/
theorem greatestInClass_signed (c : W16) :
    greatestInClass (-32767) 32767 c.toNat = if c = 0x8000 then none else some c.toInt := by
  have hc := c.isLt
  have hcode : c = 0x8000 ↔ c.toNat = 32768 := BitVec.toNat_inj.symm
  have hsigned := BitVec.toInt_eq_toNat_cond c
  by_cases h : c = 0x8000
  · rw [if_pos h, greatestInClass_eq_none hc]
    rw [hcode] at h
    omega
  · rw [if_neg h, greatestInClass_eq_some hc]
    rw [hcode] at h
    refine ⟨?_, ?_, ?_, fun j hlo hhi hj => ?_⟩ <;> split at hsigned <;> omega

/-! ### What BuildTable leaves -/

/-- R120, R122: an entry after BuildTable, whatever the table held before. -/
theorem read_buildTable (cfg : Config) {t : Table} (ht : t.wf = true) (c : W16) :
    (buildTable cfg t).read c = greatestInClass cfg.domain.1 cfg.domain.2 c.toNat := by
  rw [buildTable, read_enumerate (Table.wf_clearAll ht), Table.read_clearAll ht, Option.or_none]
  generalize cfg.domain.1 = lo
  generalize cfg.domain.2 = hi
  by_cases h : lo ≤ hi
  · congr 1
    omega
  · rw [greatestInClass_of_lt (by omega) c.isLt, greatestInClass_of_lt (by omega) c.isLt]

theorem read_buildTable_of_wrap {cfg : Config} (h : cfg.policy = .wrap) {t : Table} (ht : t.wf = true) (c : W16) :
    (buildTable cfg t).read c = greatestInClass cfg.enumLo cfg.enumHi c.toNat := by
  rw [read_buildTable cfg ht, Config.domain_of_wrap h]

theorem read_builtTable_of_wrap {cfg : Config} (h : cfg.policy = .wrap) (c : W16) :
    (builtTable cfg).read c = greatestInClass cfg.enumLo cfg.enumHi c.toNat := by
  rw [read_builtTable, Config.domain_of_wrap h]

theorem domain_of_default_rangeChecked {cfg : Config} (h : cfg.policy = .rangeChecked) (hb : cfg.rangeBound = 32767) :
    cfg.domain = (-32767, 32767) := by
  rw [Config.domain_of_rangeChecked h, hb]
  rfl

/-- Settles O22: every entry is the closed form, which is the greatest integer of its class. -/
theorem wrapTableHoldsGreatestOfClass : Obligations.WrapTableHoldsGreatestOfClass := by
  intro cfg t c hp ht
  rw [read_buildTable_of_wrap hp ht]
  refine ⟨fun i => greatestInClass_eq_some c.isLt, greatestInClass_eq_none c.isLt, fun hlo hhi => ?_⟩
  rw [hlo, hhi, greatestInClass_default c.isLt]

/-! ### The default table (R127) -/

/-- R122 on FPQ-PK-WRAP. -/
theorem read_buildTable_default {t : Table} (ht : t.wf = true) (c : W16) :
    (buildTable Config.fpqPkWrap t).read c =
      some (if c.toNat ≤ 38527 then 9961472 + (c.toNat : Int) else 9895936 + (c.toNat : Int)) :=
  (read_buildTable_of_wrap rfl ht c).trans (greatestInClass_default c.isLt)

/-- R127: every entry is full and lies in the last 65536 integers of the enumeration. -/
theorem read_buildTable_default_bounds {t : Table} (ht : t.wf = true) (c : W16) :
    ∃ i, (buildTable Config.fpqPkWrap t).read c = some i ∧ 9934464 ≤ i ∧ i ≤ 9999999 := by
  have hc := c.isLt
  refine ⟨_, read_buildTable_default ht c, ?_⟩
  split <;> omega

/-- R146, R187: UNPACK answers UNKNOWN_CODE only when some lane of the packet decodes to UNKNOWN. -/
theorem laneMask_ne_zero_of_unknownCode {rx : W8} {s u : State} (h : execUnpack rx s = .next u)
    (hu : u.rsp.status = .unknownCode) :
    laneMask (mapLanes (· == .unknown) (mapLanes (decodeCode s.table) (packetCodes (packetOperand s)))) ≠ 0 := by
  unfold execUnpack at h
  split at h
  case isTrue =>
    cases h
    simp at hu
  case isFalse =>
    split at h
    case isTrue =>
      cases h
      simp at hu
    case isFalse =>
      cases h
      intro hmask
      simp [hmask] at hu

/-- R134: no UNPACK on a table without an EMPTY entry answers UNKNOWN_CODE. -/
theorem execUnpack_status_of_full {rx : W8} {s u : State} (hfull : ∀ c, ∃ i, s.table.read c = some i)
    (h : execUnpack rx s = .next u) : u.rsp.status ≠ .unknownCode := by
  have hknown : ∀ c, (decodeCode s.table c == .unknown) = false := fun c => by
    obtain ⟨i, hi⟩ := hfull c
    rw [decodeCode_of_some hi, value_beq_unknown]
  exact fun hu => laneMask_ne_zero_of_unknownCode h hu (laneMask_eq_zero.mpr ⟨hknown _, hknown _, hknown _⟩)

/-- R127: 996.1472 in binary64. -/
theorem divNat_9961472 : Binary64.divNat 9961472 Config.scale = 0x408F212D77318FC5 := by decide +kernel

/-- Settles O24: the default entries, and that a full table leaves UNPACK no unknown lane. -/
theorem defaultTableProperties : Obligations.DefaultTableProperties := by
  intro t ht
  have hzero : (buildTable Config.fpqPkWrap t).read 0 = some 9961472 := read_buildTable_default ht 0
  refine ⟨read_buildTable_default_bounds ht, read_buildTable_default ht 38528, read_buildTable_default ht 38527, hzero,
    ?_, fun rx s u hs hu => execUnpack_status_of_full (fun c => ?_) hu⟩
  · rw [decodeCode_of_some hzero, divNat_9961472]
  · obtain ⟨i, hi, -⟩ := read_buildTable_default_bounds ht c
    exact ⟨i, by rw [hs, hi]⟩

end Machine
end Sys2Proof
end

section
/-! PROOFS. Codes of scaled integers (41_codec.md R106, R107, R110, R112) and the round trip through the built table
(R132). -/

namespace Sys2Proof.Machine

/-! ### Codes -/

theorem codeOf_eq_iff {i : Int} {c : W16} : codeOf i = c ↔ i % 65536 = c.toNat := by
  rw [← BitVec.toNat_inj, ← codeOf_toNat, Nat.cast_inj]

/-- R110: aliasing is congruence modulo 65536. -/
theorem codeOf_eq_codeOf_iff {i j : Int} : codeOf i = codeOf j ↔ i % 65536 = j % 65536 := by
  rw [codeOf_eq_iff, codeOf_toNat]

/-- R110, R126: 0x8000 is the code of ±32768, out of reach within the default bound. -/
theorem codeOf_ne_0x8000 {n : Int} (h : |n| ≤ 32767) : codeOf n ≠ 0x8000 := by
  have hcode : (0x8000 : W16).toNat = 32768 := rfl
  rw [Ne, codeOf_eq_iff, hcode]
  rw [abs_le] at h
  omega

/-! ### Encode -/

/-- R107's test on the integers themselves. -/
theorem lt_natAbs_iff_lt_abs {b : Nat} {n : Int} : b < n.natAbs ↔ (b : Int) < |n| := by
  rw [Int.abs_eq_natAbs, Nat.cast_lt]

/-- R108: a value that encodes has the code of its scaled integer, which RANGE_CHECKED found within the bound. -/
theorem encodeValue_eq_code {cfg : Config} {v : W64} {c : W16} (h : encodeValue cfg v = .code c) :
    codeOf (scaledInteger v) = c ∧ (cfg.policy = .rangeChecked → |scaledInteger v| ≤ cfg.rangeBound) := by
  rcases encodeValue_cases cfg v with ⟨-, he⟩ | ⟨-, -, he⟩ | ⟨-, -, -, -, he⟩ | ⟨-, -, hin, he⟩
  · rw [he] at h; cases h
  · rw [he] at h; cases h
  · rw [he] at h; cases h
  · rw [he, EncodeResult.code.injEq] at h
    refine ⟨h, fun hp => ?_⟩
    exact not_lt.mp fun hlt => hin ⟨hp, lt_natAbs_iff_lt_abs.mpr hlt⟩

/-- R107, R112: UNREP takes RANGE_CHECKED. -/
theorem policy_of_encodeValue_eq_unrep {cfg : Config} {v : W64} (h : encodeValue cfg v = .unrep) :
    cfg.policy = .rangeChecked := by
  rcases encodeValue_cases cfg v with ⟨-, he⟩ | ⟨-, -, he⟩ | ⟨-, -, hp, -, -⟩ | ⟨-, -, -, he⟩
  · rw [he] at h; cases h
  · rw [he] at h; cases h
  · exact hp
  · rw [he] at h; cases h

section
variable {cfg : Config} {v : W64} (hv : Binary64.isFinite v = true)
  (hprod : Binary64.isFinite (scaledProduct v) = true)
include hv hprod

/-- R108 past its two checks for NaN and infinity. -/
theorem encodeValue_of_isFinite :
    encodeValue cfg v =
      if cfg.policy = .rangeChecked ∧ (cfg.rangeBound : Int) < |scaledInteger v| then .unrep
      else .code (codeOf (scaledInteger v)) := by
  rw [encodeValue, hv, hprod]
  simp only [Bool.true_eq_false, if_false, lt_natAbs_iff_lt_abs]

/-- R106: WRAP truncates. -/
theorem encodeValue_of_wrap (hp : cfg.policy = .wrap) : encodeValue cfg v = .code (codeOf (scaledInteger v)) := by
  rw [encodeValue_of_isFinite hv hprod, if_neg (by simp [hp])]

/-- R107, within the bound. -/
theorem encodeValue_of_le (hle : |scaledInteger v| ≤ cfg.rangeBound) :
    encodeValue cfg v = .code (codeOf (scaledInteger v)) := by
  rw [encodeValue_of_isFinite hv hprod, if_neg fun hlt => not_lt.mpr hle hlt.2]

/-- R107, beyond the bound. -/
theorem encodeValue_of_lt (hp : cfg.policy = .rangeChecked) (hlt : (cfg.rangeBound : Int) < |scaledInteger v|) :
    encodeValue cfg v = .unrep := by
  rw [encodeValue_of_isFinite hv hprod, if_pos ⟨hp, hlt⟩]

end

/-- Settles O30: WRAP truncates, and it never rejects. -/
theorem wrapTruncatesToLow16Bits : Obligations.WrapTruncatesToLow16Bits := by
  refine fun cfg v hp => ⟨fun hv hprod => ⟨_, encodeValue_of_wrap hv hprod hp, codeOf_toNat _⟩, fun h => ?_⟩
  have hp' := policy_of_encodeValue_eq_unrep h
  rw [hp] at hp'
  cases hp'

/-- Settles O31: the two sides of the bound. -/
theorem rangeCheckRejectsBeyondBound : Obligations.RangeCheckRejectsBeyondBound :=
  fun _ _ hp hv hprod =>
    ⟨encodeValue_of_lt hv hprod hp, fun hle => ⟨_, encodeValue_of_le hv hprod hle, codeOf_toNat _⟩⟩

/-- Settles O32: under WRAP both results are codes of scaled integers, equal exactly when these are congruent. -/
theorem aliasedValuesShareCode : Obligations.AliasedValuesShareCode := by
  refine ⟨fun cfg v w hp hv hvprod hw hwprod => ?_, rfl, fun n => codeOf_ne_0x8000⟩
  rw [encodeValue_of_wrap hv hvprod hp, encodeValue_of_wrap hw hwprod hp, EncodeResult.code.injEq,
    codeOf_eq_codeOf_iff]

/-- Settles O23: the closed form on the default bound, and that encode keeps within that bound. -/
theorem rangeCheckedTableIsSignedCode : Obligations.RangeCheckedTableIsSignedCode := by
  refine fun cfg hp hb => ⟨fun t c ht => ?_, fun v h => ?_⟩
  · rw [read_buildTable cfg ht, domain_of_default_rangeChecked hp hb, greatestInClass_signed]
  · obtain ⟨hcode, hbound⟩ := encodeValue_eq_code h
    have hle := hbound hp
    rw [hb] at hle
    exact codeOf_ne_0x8000 hle hcode

/-! ### The round trip under WRAP (R132) -/

/-- R127, R132: of a class the default table keeps the member that lies among the last 65536 enumerated integers. -/
theorem isGreatestInClass_default_iff {n : Int} :
    IsGreatestInClass (-9999999) 9999999 (n % 65536) n ↔ 9934464 ≤ n ∧ n ≤ 9999999 := by
  constructor
  · rintro ⟨hlo, hhi, -, hmax⟩
    refine ⟨not_lt.mp fun hlt => ?_, hhi⟩
    have := hmax (n + 65536) (by omega) (by omega) (by omega)
    omega
  · rintro ⟨hlo, hhi⟩
    exact ⟨by omega, hhi, rfl, fun j _ hj hjn => by omega⟩

/-- R132: the entry of a scaled integer's code. -/
theorem read_builtTable_codeOf_eq_some {cfg : Config} (hp : cfg.policy = .wrap) {n i : Int} :
    (builtTable cfg).read (codeOf n) = some i ↔ IsGreatestInClass cfg.enumLo cfg.enumHi (n % 65536) i := by
  rw [read_builtTable_of_wrap hp, greatestInClass_eq_some (codeOf n).isLt, codeOf_toNat]

/-- Settles O36: the entry of the code is the greatest of the class of `n`; the default table holds one in every class. -/
theorem wrapRoundTripExactlyOnTopClass : Obligations.WrapRoundTripExactlyOnTopClass := by
  intro cfg v c hp _ henc
  obtain ⟨rfl, -⟩ := encodeValue_eq_code henc
  generalize scaledInteger v = n
  have hread (i : Int) := read_builtTable_codeOf_eq_some (n := n) (i := i) hp
  refine ⟨?_, fun hlo hhi => ?_⟩
  · rw [hread, IsGreatestInClass]
    simp only [true_and]
  · obtain ⟨e, he⟩ : ∃ e, (builtTable cfg).read (codeOf n) = some e := by
      rw [read_builtTable_of_wrap hp, hlo, hhi, greatestInClass_default (codeOf n).isLt]
      exact ⟨_, rfl⟩
    refine ⟨e, decodeCode_of_some he, ?_⟩
    rw [← isGreatestInClass_default_iff, ← hlo, ← hhi, ← hread, he, Option.some.injEq]

end Sys2Proof.Machine
end

section
/-! PROOFS. How far RNE64 is off (00_scope.md R11), and that a scaled integer comes back from its quotient by 10000
(41_codec.md R123, R133). -/

namespace Sys2Proof.Machine.Binary64

/-! ### The rounding error -/

theorem abs_signedRat (neg : Bool) (num den : Nat) : |signedRat neg num den| = (num : ℚ) / den := by
  have hq : (0 : ℚ) ≤ (num : ℚ) / den := by positivity
  cases neg <;> simp [signedRat, abs_of_nonneg hq]

theorem isFinite_finiteMag {M : Nat} {e : Int} (neg : Bool) (h : FitsFormat M e) :
    isFinite (withSign neg (finiteMag M e)) = true := by
  obtain ⟨-, -, -, hfin⟩ := fields_finiteMag neg h
  exact hfin

/-- The two branches of R11 for a finite result give the same value: `M = 2^53` is `2^52` in the binade above. -/
theorem exists_val_rne64_eq {neg : Bool} {num den : Nat} (hn : 0 < num) (hd : 0 < den)
    (hlt : (num : ℚ) / den < 2 ^ 1023) :
    ∃ (M : Nat) (e : Int), (2 ^ e ≤ (num : ℚ) / den ∨ e = -1022) ∧
      2 * |(M : ℚ) * 2 ^ (e - 52) - (num : ℚ) / den| ≤ 2 ^ (e - 52) ∧
      isFinite (rne64 neg num den) = true ∧
      val (rne64 neg num den) = (if neg then -1 else 1) * ((M : ℚ) * 2 ^ (e - 52)) := by
  obtain ⟨M, e, he, -, hlow, hM, hsub, herr, -, hr⟩ := rne64_cases neg hn hd
  have he' : e < 1023 := by
    rcases hlow with h | h
    · have hpow : (2 : ℚ) ^ e < 2 ^ (1023 : ℤ) := h.trans_lt (by exact_mod_cast hlt)
      exact (zpow_lt_zpow_iff_right₀ (by norm_num)).mp hpow
    · omega
  refine ⟨M, e, hlow, herr, ?_⟩
  by_cases hM' : M = 2 ^ 53
  · have hfit : FitsFormat (2 ^ 52) (e + 1) := ⟨by norm_num, by omega, by omega, fun h => absurd h (lt_irrefl _)⟩
    have hbinade : ((2 ^ 52 : Nat) : ℚ) * 2 ^ (e + 1 - 52) = (M : ℚ) * 2 ^ (e - 52) := by
      rw [hM', show e + 1 - 52 = e - 52 + 1 by ring, zpow_add_one₀ (by norm_num)]
      push_cast
      ring
    rw [hr, if_pos hM', if_neg (by omega)]
    exact ⟨isFinite_finiteMag neg hfit, by rw [val_finiteMag neg hfit, mul_assoc, hbinade]⟩
  · have hfit : FitsFormat M e := ⟨by omega, he, by omega, hsub⟩
    rw [hr, if_neg hM', if_neg (by omega)]
    exact ⟨isFinite_finiteMag neg hfit, by rw [val_finiteMag neg hfit, mul_assoc]⟩

/-- Below `2^1023` RNE64 is finite and off by at most `2^-53` of the magnitude. The 1 that is added covers the subnormal
results, whose error is absolute, and so zero as well. -/
theorem rne64_error {neg : Bool} {num den : Nat} (hd : 0 < den) (hlt : |signedRat neg num den| < 2 ^ 1023) :
    isFinite (rne64 neg num den) = true ∧
      |val (rne64 neg num den) - signedRat neg num den| ≤ (|signedRat neg num den| + 1) / 2 ^ 53 := by
  rcases Nat.eq_zero_or_pos num with rfl | hn
  · have hfit : FitsFormat 0 (-1022) := ⟨by norm_num, le_rfl, by norm_num, fun _ => rfl⟩
    have hzero : rne64 neg 0 den = withSign neg (finiteMag 0 (-1022)) := rne64_zero neg den
    rw [hzero, val_finiteMag neg hfit]
    refine ⟨isFinite_finiteMag neg hfit, ?_⟩
    simp [signedRat]
  · rw [abs_signedRat] at hlt ⊢
    obtain ⟨M, e, hlow, herr, hfin, hval⟩ := exists_val_rne64_eq (neg := neg) hn hd hlt
    refine ⟨hfin, ?_⟩
    have hq : (0 : ℚ) < (num : ℚ) / den := by positivity
    have hsign : |(if neg then -1 else 1 : ℚ)| = 1 := by cases neg <;> simp
    rw [hval, signedRat, ← mul_sub, abs_mul, hsign, one_mul]
    generalize (num : ℚ) / den = q at *
    have hunit : (2 : ℚ) ^ e ≤ q + 1 := by
      rcases hlow with h | rfl
      · linarith
      · have : (2 : ℚ) ^ (-1022 : ℤ) ≤ 1 := zpow_le_one_of_nonpos₀ (by norm_num) (by norm_num)
        linarith
    have hsplit : (2 : ℚ) ^ (e - 52) = 2 ^ e / 2 ^ 52 := by
      rw [zpow_sub₀ (by norm_num)]
      norm_num
    calc |(M : ℚ) * 2 ^ (e - 52) - q| ≤ 2 ^ (e - 52) / 2 := by linarith
      _ = 2 ^ e / 2 ^ 53 := by rw [hsplit]; ring
      _ ≤ (q + 1) / 2 ^ 53 := by gcongr

/-! ### The two roundings of the codec -/

/-- The fraction that `mulNat` rounds is the exact product. -/
theorem signedRat_mulNat (v : W64) (k : Nat) :
    signedRat (sign v) (significand v * k * 2 ^ (unitExp v).toNat) (2 ^ (-(unitExp v)).toNat) = val v * k := by
  have hpow : (2 : ℚ) ^ (unitExp v).toNat / 2 ^ (-(unitExp v)).toNat = 2 ^ unitExp v := by
    rw [← zpow_natCast, ← zpow_natCast, ← zpow_sub₀ (by norm_num), Int.toNat_sub_toNat_neg]
  rw [signedRat, val, ← hpow]
  push_cast
  ring

/-- The fraction that `divNat` rounds is the exact quotient. -/
theorem signedRat_divNat (n : Int) (k : Nat) : signedRat (decide (n < 0)) n.natAbs k = (n : ℚ) / k := by
  rw [signedRat, Nat.cast_natAbs, ← mul_div_assoc]
  congr 1
  rcases lt_or_ge n 0 with h | h
  · simp [h, abs_of_neg h]
  · simp [not_lt.mpr h, abs_of_nonneg h]

theorem mulNat_error {v : W64} {k : Nat} (hlt : |val v * k| < 2 ^ 1023) :
    isFinite (mulNat v k) = true ∧ |val (mulNat v k) - val v * k| ≤ (|val v * k| + 1) / 2 ^ 53 := by
  have h := signedRat_mulNat v k
  rw [← h] at hlt ⊢
  exact rne64_error (by positivity) hlt

theorem divNat_error {n : Int} {k : Nat} (hk : 0 < k) (hlt : |(n : ℚ) / k| < 2 ^ 1023) :
    isFinite (divNat n k) = true ∧ |val (divNat n k) - (n : ℚ) / k| ≤ (|(n : ℚ) / k| + 1) / 2 ^ 53 := by
  rw [← signedRat_divNat] at hlt ⊢
  exact rne64_error hk hlt

end Sys2Proof.Machine.Binary64

namespace Sys2Proof.Machine

/-! ### Back from the quotient -/

/-- RHA gives the integer that a rational is nearer to than a half. -/
theorem rhaRat_eq_of_abs_sub_lt {q : ℚ} {n : Int} (h : |q - n| < 1 / 2) : rhaRat q = n := by
  obtain ⟨hlo, hhi⟩ := abs_lt.mp h
  rw [rhaRat]
  split
  · rw [neg_eq_iff_eq_neg, Int.floor_eq_iff]
    push_cast
    exact ⟨by linarith, by linarith⟩
  · rw [Int.floor_eq_iff]
    exact ⟨by linarith, by linarith⟩

/-- R123, R133: dividing by 10000 and scaling again, both rounded, gives the integer back: the two errors together stay
far below a half for every 32-bit integer. -/
theorem scaledInteger_divNat {n : Int} (hn : |n| ≤ 2 ^ 31) :
    Binary64.isFinite (Binary64.divNat n Config.scale) = true ∧
    Binary64.isFinite (scaledProduct (Binary64.divNat n Config.scale)) = true ∧
    scaledInteger (Binary64.divNat n Config.scale) = n := by
  have hscale : ((Config.scale : Nat) : ℚ) = 10000 := by norm_num [Config.scale]
  have hn' : |(n : ℚ)| ≤ 2 ^ 31 := by exact_mod_cast hn
  have hbig : (2 : ℚ) ^ 33 < 2 ^ 1023 := pow_lt_pow_right₀ (by norm_num) (by norm_num)
  have hquot : |(n : ℚ) / Config.scale| ≤ 2 ^ 31 / 10000 := by
    rw [hscale, abs_div, abs_of_pos (by norm_num : (0 : ℚ) < 10000)]
    gcongr
  obtain ⟨hfin, herr⟩ := Binary64.divNat_error (by decide) ((hquot.trans (by norm_num)).trans_lt hbig)
  generalize Binary64.divNat n Config.scale = v at *
  -- the exact product is within 10000 times the first error of `n`
  have hfirst : |Binary64.val v * Config.scale - n| ≤ 1 / 4 := by
    have hexact : Binary64.val v * Config.scale - n = (Binary64.val v - (n : ℚ) / Config.scale) * 10000 := by
      rw [hscale]
      ring
    rw [hexact, abs_mul, abs_of_pos (by norm_num : (0 : ℚ) < 10000)]
    linarith
  have hprod : |Binary64.val v * Config.scale| ≤ 2 ^ 32 := by
    have := abs_sub_abs_le_abs_sub (Binary64.val v * Config.scale) (n : ℚ)
    linarith
  obtain ⟨hfin', herr'⟩ := Binary64.mulNat_error ((hprod.trans (by norm_num)).trans_lt hbig)
  refine ⟨hfin, hfin', ?_⟩
  rw [scaledInteger, Binary64.rha_eq_rhaRat_val]
  apply rhaRat_eq_of_abs_sub_lt
  calc |Binary64.val (scaledProduct v) - n|
      ≤ |Binary64.val (scaledProduct v) - Binary64.val v * Config.scale| + |Binary64.val v * Config.scale - n| :=
        abs_sub_le _ _ _
    _ ≤ (2 ^ 32 + 1) / 2 ^ 53 + 1 / 4 := by gcongr; exact herr'.trans (by gcongr)
    _ < 1 / 2 := by norm_num

/-- R126: the entry of the code of an integer within the default bound is that integer. -/
theorem read_builtTable_codeOf_of_rangeChecked {cfg : Config} (hp : cfg.policy = .rangeChecked)
    (hb : cfg.rangeBound = 32767) {n : Int} (hlo : -32767 ≤ n) (hhi : n ≤ 32767) :
    (builtTable cfg).read (codeOf n) = some n := by
  rw [read_builtTable, domain_of_default_rangeChecked hp hb, greatestInClass_eq_some (codeOf n).isLt, codeOf_toNat]
  exact ⟨hlo, hhi, rfl, fun j _ hj hjn => by omega⟩

/-- Settles O37: encode takes the quotient back to `n` and so to its code, whose entry is `n`. -/
theorem rangeCheckedRoundTripIsExact : Obligations.RangeCheckedRoundTripIsExact := by
  intro cfg n hp hb hlo hhi
  have habs : |n| ≤ 32767 := abs_le.mpr ⟨hlo, hhi⟩
  obtain ⟨hfin, hprod, hn⟩ := scaledInteger_divNat (habs.trans (by norm_num))
  have henc := encodeValue_of_le (cfg := cfg) hfin hprod (by rwa [hn, hb])
  rw [hn] at henc
  exact ⟨codeOf n, henc, codeOf_toNat n, decodeCode_of_some (read_builtTable_codeOf_of_rangeChecked hp hb hlo hhi)⟩

end Sys2Proof.Machine
end

section
/-! PROOFS. The packet word as a number and bit by bit, and what an extraction reads (42_packet.md R141 to R143). -/

namespace Sys2Proof.Machine

/-- Appending is adding, with the upper part shifted up by the width of the lower one. -/
theorem toNat_append_eq_add {v w : Nat} (hi : BitVec v) (lo : BitVec w) :
    (hi ++ lo).toNat = 2 ^ w * hi.toNat + lo.toNat := by
  rw [BitVec.toNat_append, ← Nat.shiftLeft_add_eq_or_of_lt lo.isLt, Nat.shiftLeft_eq, Nat.mul_comm]

/-! ### Composing (R141, R142) -/

theorem toNat_composite (c : Lanes W16) :
    (composite c).toNat = c.z.toNat + 2 ^ 16 * c.y.toNat + 2 ^ 32 * c.x.toNat := by
  rw [composite_eq_append, BitVec.toNat_setWidth_of_le (by decide), toNat_append_eq_add, toNat_append_eq_add]
  omega

theorem toNat_packetWord (addr : W8) (c : Lanes W16) :
    (packetWord addr (composite c)).toNat =
      addr.toNat + 2 ^ 8 * c.z.toNat + 2 ^ 24 * c.y.toNat + 2 ^ 40 * c.x.toNat := by
  rw [packetWord_eq_append, BitVec.toNat_setWidth_of_le (by decide), toNat_append_eq_add, toNat_append_eq_add,
    toNat_append_eq_add]
  omega

/-- R142, drawn as its five ranges: the top byte of zeros included. -/
theorem packetWord_eq_zero_append (addr : W8) (c : Lanes W16) :
    packetWord addr (composite c) = (0#8 ++ c.x ++ c.y ++ c.z ++ addr : BitVec (8 + 16 + 16 + 16 + 8)) := by
  apply BitVec.eq_of_toNat_eq
  rw [toNat_packetWord, toNat_append_eq_add, toNat_append_eq_add, toNat_append_eq_add, toNat_append_eq_add,
    BitVec.toNat_ofNat]
  omega

/-- A range of a word, as a number. -/
theorem toNat_extractLsb'_eq_div_mod {n : Nat} (w : BitVec n) (start len : Nat) :
    (w.extractLsb' start len).toNat = w.toNat / 2 ^ start % 2 ^ len := by
  rw [BitVec.extractLsb'_toNat, Nat.shiftRight_eq_div_pow]

/-- R142, bit by bit: which range each bit of a packet word belongs to. -/
theorem getLsbD_packetWord (addr : W8) (c : Lanes W16) (i : Nat) :
    (packetWord addr (composite c)).getLsbD i =
      if i < 8 then addr.getLsbD i
      else if i < 24 then c.z.getLsbD (i - 8)
      else if i < 40 then c.y.getLsbD (i - 24)
      else if i < 56 then c.x.getLsbD (i - 40)
      else false := by
  rw [packetWord_eq_zero_append]
  simp only [BitVec.getLsbD_append]
  grind

/-- Two packet words with one tag agree on a bit unless it lies in a lane whose codes differ. -/
theorem getLsbD_packetWord_congr {addr : W8} {c c' : Lanes W16} {i : Nat} (hx : 40 ≤ i → i < 56 → c'.x = c.x)
    (hy : 24 ≤ i → i < 40 → c'.y = c.y) (hz : 8 ≤ i → i < 24 → c'.z = c.z) :
    (packetWord addr (composite c')).getLsbD i = (packetWord addr (composite c)).getLsbD i := by
  rw [getLsbD_packetWord, getLsbD_packetWord]
  grind

/-- Settles O38: each range read off the value of the composite or of the packet word. -/
theorem packetLayoutFields : Obligations.PacketLayoutFields := by
  intro addr c
  have hx := c.x.isLt
  have hy := c.y.isLt
  have hz := c.z.isLt
  have hrange (start len : Nat) {v : BitVec len}
      (hv : (c.z.toNat + 2 ^ 16 * c.y.toNat + 2 ^ 32 * c.x.toNat) / 2 ^ start % 2 ^ len = v.toNat) :
      (composite c).extractLsb' start len = v :=
    BitVec.eq_of_toNat_eq (by rw [toNat_extractLsb'_eq_div_mod, toNat_composite, hv])
  refine ⟨hrange 32 16 ?_, hrange 16 16 ?_, hrange 0 16 ?_, hrange 48 16 (v := 0#16) ?_,
    packetWord_eq_zero_append addr c, toNat_packetWord addr c⟩
  case refine_4 => rw [BitVec.toNat_ofNat]; omega
  all_goals omega

/-! ### Extracting (R143) -/

theorem toNat_packetAddr (w : W64) : (packetAddr w).toNat = w.toNat % 2 ^ 8 := by
  rw [packetAddr, toNat_extractLsb'_eq_div_mod, Nat.pow_zero, Nat.div_one]

/-- The address and the codes lie within bits 55:0. -/
theorem packetAddr_packetCodes_congr {w w' : W64} (h : w.extractLsb' 0 56 = w'.extractLsb' 0 56) :
    packetAddr w = packetAddr w' ∧ packetCodes w = packetCodes w' := by
  have hrange (start len : Nat) (hle : start + len ≤ 56) : w.extractLsb' start len = w'.extractLsb' start len := by
    rw [← Nat.zero_add start, ← extractLsb'_extractLsb' w hle, h, extractLsb'_extractLsb' w' hle]
  exact ⟨hrange 0 8 (by decide), by
    rw [packetCodes, hrange 40 16 (by decide), hrange 24 16 (by decide), hrange 8 16 (by decide), packetCodes]⟩

/-- Settles O39: each extraction is a range of the word within bits 55:0, and those ranges of a composed word are its
parts. -/
theorem packetExtractionIgnoresTopByte : Obligations.PacketExtractionIgnoresTopByte := by
  refine ⟨fun w => ⟨toNat_packetAddr w, ?_, ?_, ?_⟩, fun w w' => packetAddr_packetCodes_congr, fun addr c =>
    ⟨packetAddr_packetWord addr c, packetCodes_packetWord addr c⟩⟩
  all_goals exact toNat_extractLsb'_eq_div_mod w _ _

end Sys2Proof.Machine
end

section
/-! PROOFS. What PACK and UNPACK answer, said once (42_packet.md R145, R146), and from it the address byte, the
independence of the lanes and the filter by address (R147 to R149). -/

namespace Sys2Proof.Machine

/-! ### PACK -/

theorem exec_pack (tag : W8) (s : State) : exec (.pack tag) s = execPack tag s := rfl

/-- The three codes that a successful PACK puts into its packet (R145). -/
def packedCodes (s : State) : Lanes W16 :=
  mapLanes EncodeResult.codeOrZero (mapLanes (encodeValue s.cfg) (valueOperands s))

@[simp] theorem packedCodes_x (s : State) : (packedCodes s).x = (encodeValue s.cfg s.req.opx).codeOrZero := rfl

@[simp] theorem packedCodes_y (s : State) : (packedCodes s).y = (encodeValue s.cfg s.req.opy).codeOrZero := rfl

@[simp] theorem packedCodes_z (s : State) : (packedCodes s).z = (encodeValue s.cfg s.req.opz).codeOrZero := rfl

/-- R145: the packet of a PACK that answers OK. -/
theorem pkt_of_exec_pack_ok {tag : W8} {s t : State} (h : exec (.pack tag) s = .next t) (hok : t.rsp.status = .ok) :
    t.rsp.pkt = packetWord tag (composite (packedCodes s)) := by
  rw [exec_pack, execPack] at h
  split at h
  case isTrue =>
    cases h
    simp at hok
  case isFalse =>
    simp only at h
    split at h
    case isTrue =>
      cases h
      simp at hok
    case isFalse =>
      split at h
      case isTrue =>
        cases h
        simp at hok
      case isFalse =>
        cases h
        rfl

/-- Settles O45: the packet is a composed one, whose low byte is its tag and whose top byte is 0. -/
theorem packedTopByteIsZero : Obligations.PackedTopByteIsZero := by
  intro tag s t h hok
  rw [pkt_of_exec_pack_ok h hok]
  exact ⟨packetAddr_packetWord tag _, packetByte_packetWord_top tag _⟩

/-! ### UNPACK -/

theorem exec_unpack (rx : W8) (s : State) : exec (.unpack rx) s = execUnpack rx s := rfl

/-- R144: the comparator compares the low byte. -/
theorem addrMatches_iff {w : W64} {rx : W8} : addrMatches w rx = true ↔ w.toNat % 256 = rx.toNat := by
  rw [addrMatches, beq_iff_eq, ← BitVec.toNat_inj, toNat_packetAddr]
  exact Iff.rfl

/-- The response of an UNPACK that compared equal, from the three decoded lanes (R146). -/
def unpackedResponse (d : Lanes DecodeResult) : Response :=
  { Response.blank with
    status := if laneMask (mapLanes (fun e => e == .unknown) d) = 0 then .accepted else .unknownCode
    lmask := laneMask (mapLanes (fun e => e == .unknown) d)
    vx := d.x.vField, vy := d.y.vField, vz := d.z.vField
    sx := d.x.sField, sy := d.y.sField, sz := d.z.sField }

theorem unpackedResponse_status (d : Lanes DecodeResult) :
    (unpackedResponse d).status = .accepted ∨ (unpackedResponse d).status = .unknownCode :=
  ite_eq_or_eq _ _ _

section
variable {rx : W8} {s : State}

theorem exec_unpack_of_not_ready (hr : s.ready = false) : exec (.unpack rx) s = .next (raise .notReady 0 s) :=
  if_pos hr

theorem exec_unpack_of_mismatch (hr : s.ready = true) (hm : addrMatches s.req.pktIn rx = false) :
    exec (.unpack rx) s = .next (respond { Response.blank with status := .rejected } s) :=
  (if_neg (by simp [hr])).trans (if_pos hm)

theorem exec_unpack_of_match (hr : s.ready = true) (hm : addrMatches s.req.pktIn rx = true) :
    exec (.unpack rx) s =
      .next (respond (unpackedResponse (mapLanes (decodeCode s.table) (packetCodes s.req.pktIn))) s) :=
  (if_neg (by simp [hr])).trans (if_neg (by simp [packetOperand, hm]))

end

/-- Settles O54: by the address comparator, UNPACK either answers from its lanes or rejects whatever the table is. -/
theorem unpackFiltersByAddress : Obligations.UnpackFiltersByAddress := by
  intro a s t hr h
  rw [Ne, ← addrMatches_iff]
  cases hm : addrMatches s.req.pktIn a with
  | true =>
    rw [exec_unpack_of_match hr hm] at h
    cases h
    exact ⟨iff_of_true (unpackedResponse_status _) rfl, fun hne => absurd rfl hne⟩
  | false =>
    rw [exec_unpack_of_mismatch hr hm] at h
    cases h
    refine ⟨by simp, fun _ => ⟨rfl, fun u t' h' => ?_⟩⟩
    rw [exec_unpack_of_mismatch (s := { s with table := u }) hr hm] at h'
    cases h'
    rfl

/-! ### Lane by lane (R147) -/

/-- What an UNPACK by `rx` in state `s` puts into the `V` and `S` fields of a lane whose code is `c`, for a packet with
address `addr`: 0 where it returns no values (R146, R186, R188). -/
def unpackedLane (rx addr : W8) (s : State) (c : W16) : W64 × W32 :=
  if s.ready = true ∧ addr = rx then ((decodeCode s.table c).vField, (decodeCode s.table c).sField) else (0, 0)

/-- R146: each lane's fields depend on the packet by its address and that lane's code only. -/
theorem fields_of_exec_unpack {rx : W8} {s t : State} (h : exec (.unpack rx) s = .next t) :
    (t.rsp.vx, t.rsp.sx) = unpackedLane rx (packetAddr s.req.pktIn) s (packetCodes s.req.pktIn).x ∧
    (t.rsp.vy, t.rsp.sy) = unpackedLane rx (packetAddr s.req.pktIn) s (packetCodes s.req.pktIn).y ∧
    (t.rsp.vz, t.rsp.sz) = unpackedLane rx (packetAddr s.req.pktIn) s (packetCodes s.req.pktIn).z := by
  cases hr : s.ready with
  | false =>
    rw [exec_unpack_of_not_ready hr] at h
    cases h
    simp [unpackedLane, hr, Response.blank]
  | true =>
    cases hm : addrMatches s.req.pktIn rx with
    | false =>
      rw [exec_unpack_of_mismatch hr hm] at h
      cases h
      have hne : packetAddr s.req.pktIn ≠ rx := by simpa [addrMatches] using hm
      simp [unpackedLane, hne, Response.blank]
    | true =>
      rw [exec_unpack_of_match hr hm] at h
      cases h
      have heq : packetAddr s.req.pktIn = rx := by simpa [addrMatches] using hm
      simp [unpackedLane, unpackedResponse, mapLanes, hr, heq]

/-- R146: UNPACK of a composed packet word gives each lane what its own code stands for. -/
theorem fields_of_exec_unpack_packetWord {rx tag : W8} {u v : State} {c : Lanes W16}
    (h : exec (.unpack rx) { u with req := { u.req with pktIn := packetWord tag (composite c) } } = .next v) :
    (v.rsp.vx, v.rsp.sx) = unpackedLane rx tag u c.x ∧ (v.rsp.vy, v.rsp.sy) = unpackedLane rx tag u c.y ∧
    (v.rsp.vz, v.rsp.sz) = unpackedLane rx tag u c.z := by
  have hfields := fields_of_exec_unpack h
  rwa [packetAddr_packetWord, packetCodes_packetWord] at hfields

/-- R147 for any two sets of codes: with one tag, lanes with the same code in both packet words unpack alike. -/
theorem fields_eq_of_codes_eq {rx tag : W8} {u v v' : State} {c c' : Lanes W16}
    (h : exec (.unpack rx) { u with req := { u.req with pktIn := packetWord tag (composite c) } } = .next v)
    (h' : exec (.unpack rx) { u with req := { u.req with pktIn := packetWord tag (composite c') } } = .next v') :
    (c'.x = c.x → v'.rsp.vx = v.rsp.vx ∧ v'.rsp.sx = v.rsp.sx) ∧
    (c'.y = c.y → v'.rsp.vy = v.rsp.vy ∧ v'.rsp.sy = v.rsp.sy) ∧
    (c'.z = c.z → v'.rsp.vz = v.rsp.vz ∧ v'.rsp.sz = v.rsp.sz) := by
  obtain ⟨hx, hy, hz⟩ := fields_of_exec_unpack_packetWord h
  obtain ⟨hx', hy', hz'⟩ := fields_of_exec_unpack_packetWord h'
  refine ⟨fun hc => ?_, fun hc => ?_, fun hc => ?_⟩
  · rwa [hc, ← hx, Prod.mk.injEq] at hx'
  · rwa [hc, ← hy, Prod.mk.injEq] at hy'
  · rwa [hc, ← hz, Prod.mk.injEq] at hz'

/-- Settles O46: each bit of a packet word belongs to the tag or to one lane, and each lane unpacks from its own code;
the codes of the operands that did not change are the same. -/
theorem lanesAreIndependent : Obligations.LanesAreIndependent := by
  intro tag rx s t t' u v v' a h hok hok' hv hv'
  rw [pkt_of_exec_pack_ok h hok] at hv ⊢
  refine ⟨fun h' => ?_, fun h' => ?_, fun h' => ?_⟩
  all_goals
    rw [pkt_of_exec_pack_ok h' hok'] at hv' ⊢
    obtain ⟨hx, hy, hz⟩ := fields_eq_of_codes_eq hv hv'
  · obtain ⟨hvy, hsy⟩ := hy (by simp)
    obtain ⟨hvz, hsz⟩ := hz (by simp)
    exact ⟨fun i hi => getLsbD_packetWord_congr (by intros; omega) (by simp) (by simp), hvy, hsy, hvz, hsz⟩
  · obtain ⟨hvx, hsx⟩ := hx (by simp)
    obtain ⟨hvz, hsz⟩ := hz (by simp)
    exact ⟨fun i hi => getLsbD_packetWord_congr (by simp) (by intros; omega) (by simp), hvx, hsx, hvz, hsz⟩
  · obtain ⟨hvx, hsx⟩ := hx (by simp)
    obtain ⟨hvy, hsy⟩ := hy (by simp)
    exact ⟨fun i hi => getLsbD_packetWord_congr (by simp) (by simp) (by intros; omega), hvx, hsx, hvy, hsy⟩

end Sys2Proof.Machine
end

section
/-! PROOFS. The exceptions that PACK and UNPACK answer before they look at a lane (60_exceptions.md R186, R188). -/

namespace Sys2Proof.Machine

/-- R190: an exception that marks no lane answers its status alone. -/
theorem raise_zero (st : Status) (s : State) :
    raise st 0 s = { s with rsp := { Response.blank with status := st }, rspValid := true } := rfl

/-- R186 for PACK; `exec_unpack_of_not_ready` is its counterpart. -/
theorem exec_pack_of_not_ready {tag : W8} {s : State} (hr : s.ready = false) :
    exec (.pack tag) s = .next (raise .notReady 0 s) :=
  if_pos hr

/-- Settles O41: both commands test READY first, so they raise the same exception. -/
theorem notReadyRefusesPackAndUnpack : Obligations.NotReadyRefusesPackAndUnpack := by
  intro a s hr
  rw [exec_pack_of_not_ready hr, exec_unpack_of_not_ready hr, raise_zero]
  exact ⟨rfl, rfl⟩

/-- R144: the comparator compares unequal exactly for another address. -/
theorem addrMatches_eq_false_iff {w : W64} {rx : W8} : addrMatches w rx = false ↔ packetAddr w ≠ rx := by
  rw [addrMatches, beq_eq_false_iff_ne]

/-- Settles O53: READY and the packet, which decide the rejection, are the same whatever table stands in place of T. -/
theorem unpackRejectsOtherAddress : Obligations.UnpackRejectsOtherAddress := by
  intro rx s u hr hne
  have hm : addrMatches s.req.pktIn rx = false := addrMatches_eq_false_iff.mpr hne
  rw [exec_unpack_of_mismatch (s := { s with table := u }) hr hm, respond]

end Sys2Proof.Machine
end

section
/-! PROOFS. What a reset ends and what writes T (70_reset_and_hazards.md R210, R212, R218). -/

namespace Sys2Proof.Machine

/-- R210, R211: the reset event and the clock edge with `rst` have the one effect, whatever else the block holds. -/
theorem step_of_resetComesNext {s : State} (h : resetComesNext s) :
    ∃ es, step s = .next (resetBlock { s with host := es }) := by
  rcases h with ⟨es, hh⟩ | ⟨p, es, hh, hrst⟩
  · exact ⟨es, by simp only [step, hh]⟩
  · exact ⟨es, by simp only [step, hh, clockEdge, hrst, if_true]⟩

/-- Settles O8: the step is the operation of R210, which delivers nothing to the host. -/
theorem resetEndsCommandWithoutResponse : Obligations.ResetEndsCommandWithoutResponse := by
  intro s t hreset hstep
  obtain ⟨es, hes⟩ := step_of_resetComesNext hreset
  obtain rfl : resetBlock { s with host := es } = t := by rwa [hes, Host.Outcome.next.injEq] at hstep
  simp

/-- R124: from `s` to `t` the block has run an INIT that found READY = 0 and set it. -/
def RunsFirstInit (s t : State) : Prop := s.ready = false ∧ decodeCmd t.req.cmd = .ok .init ∧ t.ready = true

/-- R218 for the command in flight. -/
theorem runsFirstInit_of_runCommand {s t : State} (h : runCommand s = .next t) (hne : t.table ≠ s.table) :
    RunsFirstInit s t := by
  obtain ⟨r, rfl | ⟨hinit, hready, rfl⟩⟩ := runCommand_cases h
  · exact absurd (respond_table r s) hne
  · exact ⟨hready, hinit, by simp⟩

/-- R218 for the end of the command in flight: a response already offered is only delivered. -/
theorem runsFirstInit_of_completeCommand {s t : State} (h : completeCommand s = .next t) (hne : t.table ≠ s.table) :
    RunsFirstInit s t := by
  obtain ⟨-, rfl⟩ | ⟨-, u, hrun, rfl⟩ := completeCommand_cases h
  · exact absurd (deliver_table s) hne
  · exact (runsFirstInit_of_runCommand hrun hne :)

/-- R218 at the port level: of the edges without `rst`, only the one on which the command runs can write T. -/
theorem runsFirstInit_of_clockEdge {p : Pins} {s t : State} (h : clockEdge p s = .next t) (hrst : p.rst = false)
    (hne : t.table ≠ s.table) : RunsFirstInit s t := by
  obtain ⟨hrst', -⟩ | ⟨-, -, -, rfl⟩ | ⟨-, -, -, rfl⟩ | ⟨-, -, -, -, rfl⟩ | ⟨-, -, -, -, rfl⟩ | ⟨-, -, -, -, hrun⟩ |
    ⟨-, -, -, -, rfl⟩ := clockEdge_cases h
  · simp [hrst] at hrst'
  · exact absurd (accept_table p.req s) hne
  · exact absurd rfl hne
  · exact absurd (deliver_table s) hne
  · exact absurd rfl hne
  · exact (runsFirstInit_of_runCommand hrun hne :)
  · exact absurd rfl hne

/-- Settles O16, by cases on the host's next event. -/
theorem tableWrittenOnlyByFirstInit : Obligations.TableWrittenOnlyByFirstInit := by
  intro s t hstep hne
  obtain ⟨-, rfl⟩ | ⟨es, hh, -⟩ | ⟨p, es, hh, hedge⟩ | ⟨-, -, -, -, hend⟩ | ⟨r, es, u, -, -, hrun, rfl⟩ :=
    step_cases hstep
  · exact absurd rfl hne
  · exact .inl (.inl ⟨es, hh⟩)
  · cases hrst : p.rst with
    | true => exact .inl (.inr ⟨p, es, hh, hrst⟩)
    | false => exact .inr (runsFirstInit_of_clockEdge hedge hrst hne :)
  · exact .inr (runsFirstInit_of_completeCommand hend hne)
  · exact .inr (runsFirstInit_of_runCommand hrun hne :)

end Sys2Proof.Machine
end

section
/-! PROOFS. Decoding inverts encoding (30_encoding.md R63, R70, R74). -/

namespace Sys2Proof

/-- R74, R70: the decoder reads a command back from its word. -/
theorem decodeCmd_encodeCmd (i : Instr) : decodeCmd (encodeCmd i) = .ok i := by
  cases i with
  | init => rfl
  | pack tag =>
    obtain ⟨-, h0, h1⟩ := Laws.TableRow.pack tag
    have hop : (opField (encodeCmd (.pack tag))).toNat = 2 := by
      rw [toNat_opField, toNat_encodeCmd_pack]
      omega
    have htag : tagField (encodeCmd (.pack tag)) = tag := BitVec.eq_of_toNat_eq (by
      rw [toNat_tagField, toNat_encodeCmd_pack]
      omega)
    simp [decodeCmd, h0, h1, hop, htag]
  | unpack rx =>
    obtain ⟨-, h0, h1⟩ := Laws.TableRow.unpack rx
    have hop : (opField (encodeCmd (.unpack rx))).toNat = 3 := by
      rw [toNat_opField, toNat_encodeCmd_unpack]
      omega
    have htag : tagField (encodeCmd (.unpack rx)) = rx := BitVec.eq_of_toNat_eq (by
      rw [toNat_tagField, toNat_encodeCmd_unpack]
      omega)
    simp [decodeCmd, h0, h1, hop, htag]

/-- R63, R69: a word that is not illegal is some command's word. -/
theorem exists_eq_encodeCmd {w : W32} (h : ¬ ∃ e, decodeCmd w = .error e) : ∃ i, w = encodeCmd i := by
  rcases toNat_of_not_illegal h with hinit | hpack | hunpack
  · exact ⟨.init, BitVec.eq_of_toNat_eq hinit⟩
  · exact ⟨.pack (tagField w), BitVec.eq_of_toNat_eq (by rw [hpack, toNat_encodeCmd_pack])⟩
  · exact ⟨.unpack (tagField w), BitVec.eq_of_toNat_eq (by rw [hunpack, toNat_encodeCmd_unpack])⟩

namespace Machine

/-- Settles O1: a word that decodes is some command's word, and that word decodes to that command only. -/
theorem decodeInvertsEncode : Obligations.DecodeInvertsEncode := by
  intro w i _
  constructor
  · intro hdec
    obtain ⟨j, rfl⟩ := exists_eq_encodeCmd (w := w) (by rw [hdec]; nofun)
    rw [decodeCmd_encodeCmd, Except.ok.injEq] at hdec
    rw [hdec]
  · rintro rfl
    exact decodeCmd_encodeCmd i

/-- Settles O3: the legal words are their commands' words, and each illegal word meets one test of the decoder. -/
theorem writtenOutWordsDecode : Obligations.WrittenOutWordsDecode :=
  ⟨decodeCmd_encodeCmd .init, decodeCmd_encodeCmd (.pack 10), decodeCmd_encodeCmd (.pack 255),
    decodeCmd_encodeCmd (.unpack 25), rfl, rfl, rfl, rfl⟩

end Machine
end Sys2Proof
end

section
/-! PROOFS. The whole response of INIT, PACK and UNPACK in terms of what they read (41_codec.md R124, 42_packet.md R145,
R146, 60_exceptions.md R184 to R190), and from it what they mark, ignore and leave alone. -/

namespace Sys2Proof.Machine

/-! ### Lane masks over results -/

section
variable {α : Type} [DecidableEq α]

/-- R14: a mask over results marks no lane exactly when no lane has that result. -/
theorem laneMask_beq_eq_zero {a : α} {l : Lanes α} :
    laneMask (mapLanes (fun e => e == a) l) = 0 ↔ l.x ≠ a ∧ l.y ≠ a ∧ l.z ≠ a := by
  rw [laneMask_eq_zero]
  simp [mapLanes]

/-- R14: a mask over results marks exactly the lanes that have that result. -/
theorem laneMask_beq_bits (a : α) (l : Lanes α) :
    ((laneMask (mapLanes (fun e => e == a) l))[2] = true ↔ l.x = a) ∧
    ((laneMask (mapLanes (fun e => e == a) l))[1] = true ↔ l.y = a) ∧
    ((laneMask (mapLanes (fun e => e == a) l))[0] = true ↔ l.z = a) := by
  simp [mapLanes]

theorem laneMask_beq_ne_zero {a : α} {l : Lanes α} (h : l.x = a ∨ l.y = a ∨ l.z = a) :
    laneMask (mapLanes (fun e => e == a) l) ≠ 0 := by
  rw [Ne, laneMask_beq_eq_zero]
  tauto

end

/-! ### PACK -/

/-- The three results of encode that PACK looks at (R145). -/
def encodedLanes (s : State) : Lanes EncodeResult := mapLanes (encodeValue s.cfg) (valueOperands s)

/-- The response of a PACK that finds READY = 1, from the three results of encode (R145, R189). -/
def packedResponse (tag : W8) (r : Lanes EncodeResult) : Response :=
  if laneMask (mapLanes (fun e => e == .invalid) r) ≠ 0 then
    { Response.blank with status := .invalidOperand, lmask := laneMask (mapLanes (fun e => e == .invalid) r) }
  else if laneMask (mapLanes (fun e => e == .unrep) r) ≠ 0 then
    { Response.blank with status := .unrepresentable, lmask := laneMask (mapLanes (fun e => e == .unrep) r) }
  else
    { Response.blank with status := .ok, pkt := packetWord tag (composite (mapLanes EncodeResult.codeOrZero r)) }

theorem exec_pack_of_ready {tag : W8} {s : State} (hr : s.ready = true) :
    exec (.pack tag) s = .next (respond (packedResponse tag (encodedLanes s)) s) := by
  rw [exec_pack, execPack, if_neg (by simp [hr]), packedResponse]
  by_cases hinv : laneMask (mapLanes (fun e => e == .invalid) (encodedLanes s)) ≠ 0
  · rw [if_pos hinv]
    exact if_pos hinv
  · rw [if_neg hinv]
    refine (if_neg hinv).trans ?_
    by_cases hunrep : laneMask (mapLanes (fun e => e == .unrep) (encodedLanes s)) ≠ 0
    · rw [if_pos hunrep]
      exact if_pos hunrep
    · rw [if_neg hunrep]
      exact if_neg hunrep

section
variable {tag : W8} {r : Lanes EncodeResult}

theorem packedResponse_of_invalid (h : r.x = .invalid ∨ r.y = .invalid ∨ r.z = .invalid) :
    packedResponse tag r =
      { Response.blank with status := .invalidOperand, lmask := laneMask (mapLanes (fun e => e == .invalid) r) } :=
  if_pos (laneMask_beq_ne_zero h)

theorem packedResponse_of_unrep (hx : r.x ≠ .invalid) (hy : r.y ≠ .invalid) (hz : r.z ≠ .invalid)
    (h : r.x = .unrep ∨ r.y = .unrep ∨ r.z = .unrep) :
    packedResponse tag r =
      { Response.blank with status := .unrepresentable, lmask := laneMask (mapLanes (fun e => e == .unrep) r) } :=
  (if_neg (not_not.mpr (laneMask_beq_eq_zero.mpr ⟨hx, hy, hz⟩))).trans (if_pos (laneMask_beq_ne_zero h))

theorem packedResponse_of_codes {cx cy cz : W16} :
    packedResponse tag ⟨.code cx, .code cy, .code cz⟩ =
      { Response.blank with status := .ok, pkt := packetWord tag (composite ⟨cx, cy, cz⟩) } :=
  (if_neg (not_not.mpr (laneMask_beq_eq_zero.mpr (by simp)))).trans
    (if_neg (not_not.mpr (laneMask_beq_eq_zero.mpr (by simp))))

end

/-- Settles O42: three codes raise neither exception, and the packet word is its five ranges appended. -/
theorem packComposesPacket : Obligations.PackComposesPacket := by
  intro tag s cx cy cz hr hx hy hz
  have hlanes : encodedLanes s = ⟨.code cx, .code cy, .code cz⟩ := by
    rw [← hx, ← hy, ← hz]
    rfl
  rw [exec_pack_of_ready hr, hlanes, packedResponse_of_codes, packetWord_eq_zero_append]
  rfl

/-- Settles O43: the INVALID lanes are looked at first, so they alone decide. -/
theorem packMarksInvalidLanes : Obligations.PackMarksInvalidLanes := by
  intro tag s hr hinv
  refine ⟨_, ?_, laneMask_beq_bits _ (encodedLanes s)⟩
  rw [exec_pack_of_ready hr, packedResponse_of_invalid hinv]
  rfl

/-- Settles O44: without INVALID lanes the UNREP lanes decide, and only RANGE_CHECKED has them. -/
theorem packMarksUnrepresentableLanes : Obligations.PackMarksUnrepresentableLanes := by
  intro tag s hr hx hy hz hunrep
  have hpolicy : s.cfg.policy = .rangeChecked := by
    rcases hunrep with h | h | h
    all_goals exact policy_of_encodeValue_eq_unrep h
  refine ⟨hpolicy, _, ?_, laneMask_beq_bits _ (encodedLanes s)⟩
  rw [exec_pack_of_ready hr, packedResponse_of_unrep hx hy hz hunrep]
  rfl

/-! ### UNPACK -/

theorem decodeCode_eq_unknown_iff {t : Table} {c : W16} : decodeCode t c = .unknown ↔ t.read c = none := by
  cases h : t.read c with
  | none => simp [decodeCode_of_none h]
  | some e => simp [decodeCode_of_some h]

/-- R131, R134: the `V` field of a lane by its entry. -/
theorem vField_decodeCode (t : Table) (c : W16) :
    (decodeCode t c).vField = ((t.read c).map fun e => Binary64.divNat e 10000).getD 0 := by
  cases h : t.read c with
  | none => rw [decodeCode_of_none h]; rfl
  | some e => rw [decodeCode_of_some h]; rfl

/-- R131, R134: the `S` field of a lane by its entry. -/
theorem sField_decodeCode (t : Table) (c : W16) :
    (decodeCode t c).sField = ((t.read c).map (BitVec.ofInt 32)).getD 0 := by
  cases h : t.read c with
  | none => rw [decodeCode_of_none h]; rfl
  | some e => rw [decodeCode_of_some h]; rfl

/-- The three results of decode that a matching UNPACK looks at (R146). -/
def decodedLanes (s : State) : Lanes DecodeResult := mapLanes (decodeCode s.table) (packetCodes s.req.pktIn)

/-- R146: the response of a matching UNPACK by the three entries it reads; only the status and the mask look at more than
one lane. -/
theorem exec_unpack_of_entries {rx : W8} {s : State} {ox oy oz : Option Int} (hr : s.ready = true)
    (hm : s.req.pktIn.extractLsb' 0 8 = rx) (hx : s.table.read (s.req.pktIn.extractLsb' 40 16) = ox)
    (hy : s.table.read (s.req.pktIn.extractLsb' 24 16) = oy) (hz : s.table.read (s.req.pktIn.extractLsb' 8 16) = oz) :
    exec (.unpack rx) s = .next
      { s with rsp := { Response.blank with
                          status := if laneMask (mapLanes (fun e => e == .unknown) (decodedLanes s)) = 0 then .accepted
                            else .unknownCode
                          lmask := laneMask (mapLanes (fun e => e == .unknown) (decodedLanes s))
                          vx := (ox.map fun e => Binary64.divNat e 10000).getD 0,
                          vy := (oy.map fun e => Binary64.divNat e 10000).getD 0,
                          vz := (oz.map fun e => Binary64.divNat e 10000).getD 0,
                          sx := (ox.map (BitVec.ofInt 32)).getD 0, sy := (oy.map (BitVec.ofInt 32)).getD 0,
                          sz := (oz.map (BitVec.ofInt 32)).getD 0 },
               rspValid := true } := by
  subst hx hy hz
  have hmatch : addrMatches s.req.pktIn rx = true := beq_iff_eq.mpr hm
  rw [exec_unpack_of_match hr hmatch]
  simp only [← vField_decodeCode, ← sField_decodeCode]
  rfl

/-- Settles O51: three entries leave no lane unknown. -/
theorem unpackDecodesMatchingPacket : Obligations.UnpackDecodesMatchingPacket := by
  intro rx s ex ey ez hr hm hx hy hz
  have hmask : laneMask (mapLanes (fun e => e == .unknown) (decodedLanes s)) = 0 := by
    refine laneMask_beq_eq_zero.mpr ⟨?_, ?_, ?_⟩
    · exact decodeCode_eq_unknown_iff.not.mpr (by simp [packetCodes, hx])
    · exact decodeCode_eq_unknown_iff.not.mpr (by simp [packetCodes, hy])
    · exact decodeCode_eq_unknown_iff.not.mpr (by simp [packetCodes, hz])
  rw [exec_unpack_of_entries hr hm hx hy hz, hmask]
  rfl

/-- Settles O52: a lane is unknown exactly when its entry is EMPTY. -/
theorem unpackMarksUnknownLanes : Obligations.UnpackMarksUnknownLanes := by
  intro rx s ox oy oz hr hm hx hy hz hempty
  have hux : (decodedLanes s).x = .unknown ↔ ox = none := by rw [← hx]; exact decodeCode_eq_unknown_iff
  have huy : (decodedLanes s).y = .unknown ↔ oy = none := by rw [← hy]; exact decodeCode_eq_unknown_iff
  have huz : (decodedLanes s).z = .unknown ↔ oz = none := by rw [← hz]; exact decodeCode_eq_unknown_iff
  have hmask := laneMask_beq_ne_zero (a := DecodeResult.unknown) (l := decodedLanes s) (by rwa [hux, huy, huz])
  obtain ⟨hbx, hby, hbz⟩ := laneMask_beq_bits DecodeResult.unknown (decodedLanes s)
  refine ⟨_, ?_, hbx.trans hux, hby.trans huy, hbz.trans huz⟩
  rw [exec_unpack_of_entries hr hm hx hy hz, if_neg hmask]

/-! ### What the commands read and write -/

/-- The response of a PACK (R145, R186). -/
def packAnswer (tag : W8) (s : State) : Response :=
  if s.ready then packedResponse tag (encodedLanes s) else { Response.blank with status := .notReady }

/-- The response of an UNPACK (R146, R186, R188). -/
def unpackAnswer (rx : W8) (s : State) : Response :=
  if s.ready then
    if addrMatches s.req.pktIn rx then unpackedResponse (decodedLanes s) else { Response.blank with status := .rejected }
  else { Response.blank with status := .notReady }

/-- PACK is its answer and nothing else. -/
theorem exec_pack_eq (tag : W8) (s : State) : exec (.pack tag) s = .next (respond (packAnswer tag s) s) := by
  cases hr : s.ready with
  | false => simp [exec_pack_of_not_ready hr, packAnswer, hr, raise, Response.blank]
  | true => simp [exec_pack_of_ready hr, packAnswer, hr]

/-- UNPACK is its answer and nothing else. -/
theorem exec_unpack_eq (rx : W8) (s : State) : exec (.unpack rx) s = .next (respond (unpackAnswer rx s) s) := by
  cases hr : s.ready with
  | false => simp [exec_unpack_of_not_ready hr, unpackAnswer, hr, raise, Response.blank]
  | true =>
    cases hm : addrMatches s.req.pktIn rx with
    | false => simp [exec_unpack_of_mismatch hr hm, unpackAnswer, hr, hm]
    | true => simp [exec_unpack_of_match hr hm, unpackAnswer, hr, hm, decodedLanes]

theorem exec_init_of_ready {s : State} (hr : s.ready = true) :
    exec .init s = .next (respond { Response.blank with status := .ok } s) :=
  if_pos hr

theorem exec_init_of_not_ready {s : State} (hr : s.ready = false) :
    exec .init s = .next (respond { Response.blank with status := .ok } (buildAndSetReady s)) :=
  if_neg (by simp [hr])

/-- PACK looks at the configuration, READY and the three value ports. -/
theorem packAnswer_congr {tag : W8} {s t : State} (hcfg : t.cfg = s.cfg) (hready : t.ready = s.ready)
    (hports : valueOperands t = valueOperands s) : packAnswer tag t = packAnswer tag s := by
  rw [packAnswer, packAnswer, encodedLanes, encodedLanes, hcfg, hready, hports]

/-- UNPACK looks at READY, T and PKT_IN. -/
theorem unpackAnswer_congr {rx : W8} {s t : State} (hready : t.ready = s.ready) (htable : t.table = s.table)
    (hport : t.req.pktIn = s.req.pktIn) : unpackAnswer rx t = unpackAnswer rx s := by
  rw [unpackAnswer, unpackAnswer, decodedLanes, decodedLanes, hready, htable, hport]

theorem packAnswer_respond (tag : W8) (r : Response) (s : State) : packAnswer tag (respond r s) = packAnswer tag s :=
  packAnswer_congr rfl rfl rfl

theorem unpackAnswer_respond (rx : W8) (r : Response) (s : State) :
    unpackAnswer rx (respond r s) = unpackAnswer rx s :=
  unpackAnswer_congr rfl rfl rfl

theorem respond_respond (r r' : Response) (s : State) : respond r (respond r' s) = respond r s := rfl

/-- Settles O20: with READY = 1 INIT is its OK alone. -/
theorem initWhenReadyOnlyAnswersOk : Obligations.InitWhenReadyOnlyAnswersOk := fun _ hr => exec_init_of_ready hr

/-- Settles O47: the answer is the same with another table. -/
theorem packReadsNoTableEntry : Obligations.PackReadsNoTableEntry := by
  intro tag s u
  rw [exec_pack_eq, exec_pack_eq, mapNext_next, packAnswer_congr (s := s) (t := { s with table := u }) rfl rfl rfl]
  rfl

/-- Settles O48: INIT looks at READY only, and the answers of PACK and UNPACK at the ports they read. -/
theorem ignoredPortsHaveNoEffect : Obligations.IgnoredPortsHaveNoEffect := by
  intro a s q
  refine ⟨?_, fun hx hy hz => ?_, fun hp => ?_⟩
  · rcases Bool.eq_false_or_eq_true s.ready with hr | hr
    · rw [exec_init_of_ready hr, exec_init_of_ready (s := { s with req := q }) hr]
      rfl
    · rw [exec_init_of_not_ready hr, exec_init_of_not_ready (s := { s with req := q }) hr]
      rfl
  · have hports : valueOperands { s with req := q } = valueOperands s := by
      simp only [valueOperands, hx, hy, hz]
    rw [exec_pack_eq, exec_pack_eq, mapNext_next, packAnswer_congr (s := s) (t := { s with req := q }) rfl rfl hports]
    rfl
  · rw [exec_unpack_eq, exec_unpack_eq, mapNext_next, unpackAnswer_congr (s := s) (t := { s with req := q }) rfl rfl hp]
    rfl

/-- Offering a response is all that `keepsAllButResponse` allows. -/
theorem keepsAllButResponse_respond (r : Response) (s : State) : keepsAllButResponse s (respond r s) := by
  simp [keepsAllButResponse]

/-- Settles O49: both commands are their answers and nothing else. -/
theorem packAndUnpackWriteOnlyResponse : Obligations.PackAndUnpackWriteOnlyResponse := by
  rintro a s t (h | h)
  · obtain ⟨r, rfl⟩ := execPack_cases h
    exact ⟨keepsAllButResponse_respond r s, rfl⟩
  · obtain ⟨r, rfl⟩ := execUnpack_cases h
    exact ⟨keepsAllButResponse_respond r s, rfl⟩

/-- Settles O50: an answer reads nothing that an answer writes. -/
theorem packAndUnpackAreIdempotent : Obligations.PackAndUnpackAreIdempotent := by
  intro a s t
  constructor
  · rw [exec_pack_eq, exec_pack_eq, Host.Outcome.next.injEq]
    rintro rfl
    rw [packAnswer_respond, respond_respond]
  · rw [exec_unpack_eq, exec_unpack_eq, Host.Outcome.next.injEq]
    rintro rfl
    rw [unpackAnswer_respond, respond_respond]

/-! ### The discipline of responses (R66, R68) -/

theorem extractLsb'_zero_top : (0 : W64).extractLsb' 56 8 = 0 := by decide

/-- A response with a status and a mask only. -/
theorem disciplined_of_mask {st : Status} {m : BitVec 3} (h : st.marksLanes = true ↔ m ≠ 0) :
    Response.disciplined { Response.blank with status := st, lmask := m } :=
  ⟨h, fun _ => rfl, extractLsb'_zero_top, fun _ => ⟨rfl, rfl, rfl, rfl, rfl, rfl⟩, fun _ => ⟨rfl, rfl⟩, fun _ => ⟨rfl, rfl⟩,
    fun _ => ⟨rfl, rfl⟩⟩

theorem disciplined_of_status {st : Status} (h : st.marksLanes = false) :
    Response.disciplined { Response.blank with status := st } :=
  disciplined_of_mask (iff_of_false (by simp [h]) (not_not.mpr rfl))

/-- R148: an OK with a packet word. -/
theorem disciplined_of_packetWord (tag : W8) (c : Lanes W16) :
    Response.disciplined { Response.blank with status := .ok, pkt := packetWord tag (composite c) } :=
  ⟨iff_of_false nofun (not_not.mpr rfl), fun h => absurd rfl h, packetByte_packetWord_top tag c,
    fun _ => ⟨rfl, rfl, rfl, rfl, rfl, rfl⟩, fun _ => ⟨rfl, rfl⟩, fun _ => ⟨rfl, rfl⟩, fun _ => ⟨rfl, rfl⟩⟩

theorem disciplined_packedResponse (tag : W8) (r : Lanes EncodeResult) : (packedResponse tag r).disciplined := by
  rw [packedResponse]
  split
  case isTrue h => exact disciplined_of_mask (iff_of_true rfl h)
  case isFalse =>
    split
    case isTrue h => exact disciplined_of_mask (iff_of_true rfl h)
    case isFalse => exact disciplined_of_packetWord _ _

/-- R146: UNKNOWN_CODE is the status exactly when a lane is marked. -/
theorem unpackedResponse_marksLanes (d : Lanes DecodeResult) :
    (unpackedResponse d).status.marksLanes = true ↔ (unpackedResponse d).lmask ≠ 0 := by
  by_cases h : laneMask (mapLanes (fun e => e == .unknown) d) = 0
  · simp only [unpackedResponse, if_pos h]
    exact iff_of_false nofun (not_not.mpr h)
  · simp only [unpackedResponse, if_neg h]
    exact iff_of_true rfl h

theorem disciplined_unpackedResponse (d : Lanes DecodeResult) : (unpackedResponse d).disciplined := by
  obtain ⟨hx, hy, hz⟩ := laneMask_beq_bits DecodeResult.unknown d
  refine ⟨unpackedResponse_marksLanes d, fun _ => rfl, extractLsb'_zero_top, fun hc => ?_, fun h => ?_, fun h => ?_,
    fun h => ?_⟩
  · rcases unpackedResponse_status d with h | h <;> rw [h] at hc <;> cases hc
  · simp [unpackedResponse, hx.mp h, DecodeResult.vField, DecodeResult.sField]
  · simp [unpackedResponse, hy.mp h, DecodeResult.vField, DecodeResult.sField]
  · simp [unpackedResponse, hz.mp h, DecodeResult.vField, DecodeResult.sField]

theorem disciplined_packAnswer (tag : W8) (s : State) : (packAnswer tag s).disciplined := by
  rw [packAnswer]
  split
  · exact disciplined_packedResponse _ _
  · exact disciplined_of_status rfl

theorem disciplined_unpackAnswer (rx : W8) (s : State) : (unpackAnswer rx s).disciplined := by
  rw [unpackAnswer]
  split
  · split
    · exact disciplined_unpackedResponse _
    · exact disciplined_of_status rfl
  · exact disciplined_of_status rfl

theorem disciplined_of_exec {i : Instr} {s t : State} (h : exec i s = .next t) : t.rsp.disciplined := by
  cases i with
  | init =>
    rcases execInit_cases h with ⟨-, rfl⟩ | ⟨-, rfl⟩
    all_goals exact disciplined_of_status rfl
  | pack tag =>
    rw [exec_pack_eq, Host.Outcome.next.injEq] at h
    rw [← h]
    exact disciplined_packAnswer tag s
  | unpack rx =>
    rw [exec_unpack_eq, Host.Outcome.next.injEq] at h
    rw [← h]
    exact disciplined_unpackAnswer rx s

/-- Settles O18: every command's answer is disciplined, and so is ILLEGAL_COMMAND. -/
theorem responsesAreDisciplined : Obligations.ResponsesAreDisciplined := by
  intro s t h
  cases hd : decodeCmd s.req.cmd with
  | error e =>
    rw [runCommand_of_illegal hd, Host.Outcome.next.injEq] at h
    rw [← h]
    exact disciplined_of_status (st := .illegalCommand) rfl
  | ok i =>
    rw [runCommand_of_legal hd] at h
    exact disciplined_of_exec h

end Sys2Proof.Machine
end

section
/-! PROOFS. BuildTable against the closed form (41_codec.md R120, R122; 70_reset_and_hazards.md R221), and INIT (R124,
R125). -/

namespace Sys2Proof.Machine

/-- Settles O21: the two tables read alike, and tables in canonical form that read alike are equal. -/
theorem buildTableMatchesClosedForm : Obligations.BuildTableMatchesClosedForm := by
  intro cfg t ht
  refine Table.ext_read (wf_buildTable cfg ht) (wf_builtTable cfg) fun c => ?_
  rw [read_buildTable cfg ht, read_builtTable]

/-- Settles O19: INIT stores the closed form, which is what BuildTable makes of the table. -/
theorem initBuildsTableAndSetsReady : Obligations.InitBuildsTableAndSetsReady := by
  intro s hr ht
  rw [exec_init_of_not_ready hr, buildTableMatchesClosedForm s.cfg s.table ht]
  rfl

end Sys2Proof.Machine
end

section
/-! PROOFS. One equation of the step per event of the host, what every step keeps, and the invariant of the machine
(10_state.md R22, R26, R33; 30_encoding.md R71; 70_reset_and_hazards.md R210 to R217). -/

namespace Sys2Proof.Machine

/-! ### The step by the host's next event -/

section
variable {s : State} {es : List HostEvent}

theorem step_of_nil (h : s.host = []) : step s = .next s := by simp only [step, h]

theorem step_of_reset (h : s.host = .reset :: es) : step s = .next (resetBlock { s with host := es }) := by
  simp only [step, h]

theorem step_of_edge {p : Pins} (h : s.host = .edge p :: es) : step s = clockEdge p { s with host := es } := by
  simp only [step, h]

theorem step_of_command_busy {r : Request} (h : s.host = .command r :: es) (hb : s.busy = true) :
    step s = completeCommand s := by
  simp only [step, h, hb, if_true]

theorem step_of_command_idle {r : Request} (h : s.host = .command r :: es) (hb : s.busy = false) :
    step s = mapNext deliver (runCommand (accept r { s with host := es })) := by
  simp only [step, h, hb, Bool.false_eq_true, if_false]
  exact transact_eq r _

end

theorem completeCommand_of_not_rspValid {s : State} (h : s.rspValid = false) :
    completeCommand s = mapNext deliver (runCommand s) :=
  if_neg (by simp [h])

theorem clockEdge_next (p : Pins) (s : State) : ∃ t, clockEdge p s = .next t := by
  unfold clockEdge
  split
  · exact ⟨_, rfl⟩
  · split
    · exact ⟨_, rfl⟩
    · split
      · exact ⟨_, rfl⟩
      · split
        · exact runCommand_next _
        · exact ⟨_, rfl⟩

/-- Settles O12: no event is the first case of the step. -/
theorem idleStepKeepsState : Obligations.IdleStepKeepsState := fun _ => step_of_nil

/-- Settles O11, by cases on the host's next event. -/
theorem everyStepHasNextState : Obligations.EveryStepHasNextState := by
  intro s
  match h : s.host with
  | [] => exact ⟨s, step_of_nil h⟩
  | .reset :: es => exact ⟨_, step_of_reset h⟩
  | .edge p :: es =>
    rw [step_of_edge h]
    exact clockEdge_next p _
  | .command r :: es =>
    rcases Bool.eq_false_or_eq_true s.busy with hb | hb
    · rw [step_of_command_busy h hb]
      exact completeCommand_next s
    · obtain ⟨u, hu⟩ := runCommand_next (accept r { s with host := es })
      exact ⟨deliver u, by rw [step_of_command_idle h hb, hu, mapNext_next]⟩

/-- Settles O7: the reset's next state is `resetBlock`, whose table is made of free entries. -/
theorem resetEventEffect : Obligations.ResetEventEffect := by
  intro s es h
  refine ⟨_, step_of_reset h, by simp, by simp, by simp, by simp, fun c => ?_⟩
  rw [resetBlock_table, Table.read_ofEntries]

/-- Settles O10: acceptance samples the word that then runs. -/
theorem stepRunsDecodedInstruction : Obligations.StepRunsDecodedInstruction := by
  refine ⟨fun s r es i _ h hb hd => ?_, fun s r es i _ h hb hv hd => ?_, fun s nbits w i hd => ?_⟩
  · rw [step_of_command_idle h hb, runCommand_of_legal (s := accept r _) hd]
  · rw [step_of_command_busy h hb, completeCommand_of_not_rspValid hv, runCommand_of_legal hd]
  · have hd' : decodeCmd (tableWord nbits w) = .ok i := by
      unfold decodeTableWord at hd
      split at hd
      case h_1 j hj => rw [hj, Option.some.inj hd]
      case h_2 => cases hd
    rw [step_of_command_idle (s := s.withFetchWord nbits w) rfl rfl,
      runCommand_of_legal (s := accept { s.req with cmd := tableWord nbits w } _) hd']
    rfl

/-! ### What every step keeps -/

/-- What a command leaves alone whatever it is; its response is offered. -/
theorem runCommand_frame {s t : State} (h : runCommand s = .next t) :
    t.cfg = s.cfg ∧ t.busy = s.busy ∧ t.req = s.req ∧ t.rspValid = true ∧ t.accepted = s.accepted ∧
      t.resets = s.resets ∧ t.host = s.host ∧ t.log = s.log := by
  obtain ⟨r, rfl | ⟨-, -, rfl⟩⟩ := runCommand_cases h
  all_goals simp

/-- What the end of the command in flight leaves alone; the block is idle after it. -/
theorem completeCommand_frame {s t : State} (h : completeCommand s = .next t) :
    t.cfg = s.cfg ∧ t.busy = false ∧ t.req = s.req ∧ t.accepted = s.accepted ∧ t.host = s.host := by
  obtain ⟨-, rfl⟩ | ⟨-, u, hrun, rfl⟩ := completeCommand_cases h
  · simp
  · obtain ⟨hcfg, -, hreq, -, haccepted, -, hhost, -⟩ := runCommand_frame hrun
    simp [hcfg, hreq, haccepted, hhost]

theorem clockEdge_cfg {p : Pins} {s t : State} (h : clockEdge p s = .next t) : t.cfg = s.cfg := by
  obtain ⟨-, rfl⟩ | ⟨-, -, -, rfl⟩ | ⟨-, -, -, rfl⟩ | ⟨-, -, -, -, rfl⟩ | ⟨-, -, -, -, rfl⟩ | ⟨-, -, -, -, hrun⟩ |
    ⟨-, -, -, -, rfl⟩ := clockEdge_cases h
  · exact resetBlock_cfg s
  · exact accept_cfg p.req s
  · rfl
  · exact deliver_cfg s
  · rfl
  · obtain ⟨hcfg, -⟩ := runCommand_frame hrun
    exact hcfg
  · rfl

/-- Settles O15, by cases on the host's next event. -/
theorem configurationNeverChanges : Obligations.ConfigurationNeverChanges := by
  intro s t h
  obtain ⟨-, rfl⟩ | ⟨es, -, rfl⟩ | ⟨p, es, -, hedge⟩ | ⟨-, -, -, -, hend⟩ | ⟨r, es, u, -, -, hrun, rfl⟩ := step_cases h
  · rfl
  · rfl
  · exact (clockEdge_cfg hedge :)
  · obtain ⟨hcfg, -⟩ := completeCommand_frame hend
    exact hcfg
  · obtain ⟨hcfg, -⟩ := runCommand_frame hrun
    exact hcfg

/-- Settles O13: acceptance, the command's frame, and delivery, one after the other. -/
theorem transactionGivesOneResponse : Obligations.TransactionGivesOneResponse := by
  intro s r es h hb
  obtain ⟨u, hu⟩ := runCommand_next (accept r { s with host := es })
  obtain ⟨hcfg, -, hreq, -, haccepted, hresets, hhost, hlog⟩ := runCommand_frame hu
  refine ⟨deliver u, by rw [step_of_command_idle h hb, hu, mapNext_next], ?_⟩
  simp [hcfg, hreq, haccepted, hresets, hhost, hlog]

/-- Settles O14: the step ends the command in flight, and an edge with BUSY = 1 accepts nothing. -/
theorem busyBlockKeepsOfferWaiting : Obligations.BusyBlockKeepsOfferWaiting := by
  refine ⟨fun s t r es h hb hstep => ?_, fun p s t hb hrst hedge => ?_⟩
  · rw [step_of_command_busy h hb] at hstep
    obtain ⟨-, hidle, hreq, haccepted, hhost⟩ := completeCommand_frame hstep
    exact ⟨hhost, hreq, haccepted, hidle⟩
  · refine ⟨by simp [outputs, hb], ?_⟩
    obtain ⟨hrst', -⟩ | ⟨-, hb', -⟩ | ⟨-, hb', -⟩ | ⟨-, -, -, -, rfl⟩ | ⟨-, -, -, -, rfl⟩ | ⟨-, -, -, -, hrun⟩ |
      ⟨-, -, -, -, rfl⟩ := clockEdge_cases hedge
    · rw [hrst] at hrst'; cases hrst'
    · rw [hb] at hb'; cases hb'
    · rw [hb] at hb'; cases hb'
    · exact ⟨rfl, rfl⟩
    · exact ⟨rfl, rfl⟩
    · obtain ⟨-, -, hreq, -, haccepted, -⟩ := runCommand_frame hrun
      exact ⟨hreq, haccepted⟩
    · exact ⟨rfl, rfl⟩

/-! ### READY and T -/

/-- From `s` to `t` READY and T are as they were, or a first INIT has built the table (R22, R124). -/
def ReadyKeptOrBuilt (s t : State) : Prop :=
  (t.ready = s.ready ∧ t.table = s.table) ∨
  (RunsFirstInit s t ∧ t.table = builtTable s.cfg)

theorem readyKeptOrBuilt_of_runCommand {s t : State} (h : runCommand s = .next t) : ReadyKeptOrBuilt s t := by
  obtain ⟨r, rfl | ⟨hinit, hready, rfl⟩⟩ := runCommand_cases h
  · exact .inl ⟨rfl, rfl⟩
  · exact .inr ⟨⟨hready, hinit, rfl⟩, rfl⟩

theorem readyKeptOrBuilt_of_completeCommand {s t : State} (h : completeCommand s = .next t) : ReadyKeptOrBuilt s t := by
  obtain ⟨-, rfl⟩ | ⟨-, u, hrun, rfl⟩ := completeCommand_cases h
  · exact .inl ⟨rfl, rfl⟩
  · exact (readyKeptOrBuilt_of_runCommand hrun :)

/-- R71, R31: of the edges without `rst` only the one that offers the response can change READY and T. -/
theorem kept_or_offers_built_of_clockEdge {p : Pins} {s t : State} (h : clockEdge p s = .next t) (hrst : p.rst = false) :
    (t.ready = s.ready ∧ t.table = s.table) ∨
      (t.rspValid = true ∧ RunsFirstInit s t ∧ t.table = builtTable s.cfg) := by
  obtain ⟨hrst', -⟩ | ⟨-, -, -, rfl⟩ | ⟨-, -, -, rfl⟩ | ⟨-, -, -, -, rfl⟩ | ⟨-, -, -, -, rfl⟩ | ⟨-, -, -, -, hrun⟩ |
    ⟨-, -, -, -, rfl⟩ := clockEdge_cases h
  · rw [hrst] at hrst'; cases hrst'
  · exact .inl ⟨rfl, rfl⟩
  · exact .inl ⟨rfl, rfl⟩
  · exact .inl ⟨rfl, rfl⟩
  · exact .inl ⟨rfl, rfl⟩
  · obtain ⟨-, -, -, hoffered, -⟩ := runCommand_frame hrun
    exact (readyKeptOrBuilt_of_runCommand hrun).imp_right (And.intro hoffered)
  · exact .inl ⟨rfl, rfl⟩

/-- All that a step can do to READY and T. -/
theorem reset_or_readyKeptOrBuilt_of_step {s t : State} (h : step s = .next t) :
    resetComesNext s ∨ ReadyKeptOrBuilt s t := by
  obtain ⟨-, rfl⟩ | ⟨es, hh, -⟩ | ⟨p, es, hh, hedge⟩ | ⟨-, -, -, -, hend⟩ | ⟨r, es, u, -, -, hrun, rfl⟩ := step_cases h
  · exact .inr (.inl ⟨rfl, rfl⟩)
  · exact .inl (.inl ⟨es, hh⟩)
  · cases hrst : p.rst with
    | true => exact .inl (.inr ⟨p, es, hh, hrst⟩)
    | false => exact .inr ((kept_or_offers_built_of_clockEdge hedge hrst).imp_right And.right)
  · exact .inr (readyKeptOrBuilt_of_completeCommand hend)
  · exact .inr (readyKeptOrBuilt_of_runCommand hrun :)

/-- Settles O17: a step that is no reset keeps READY or raises it with the built table. -/
theorem readyChangesOnlyByInitOrReset : Obligations.ReadyChangesOnlyByInitOrReset := by
  intro s t hstep
  refine ⟨fun hs ht => ?_, fun hs ht => ?_⟩
  · obtain hreset | ⟨hready, -⟩ | ⟨⟨hready, -⟩, -⟩ := reset_or_readyKeptOrBuilt_of_step hstep
    · exact hreset
    · rw [hs, ht] at hready; cases hready
    · rw [hs] at hready; cases hready
  · obtain hreset | ⟨hready, -⟩ | ⟨⟨-, hinit, -⟩, htable⟩ := reset_or_readyKeptOrBuilt_of_step hstep
    · obtain ⟨-, -, -, hready⟩ := resetEndsCommandWithoutResponse s t hreset hstep
      rw [ht] at hready; cases hready
    · rw [hs, ht] at hready; cases hready
    · exact ⟨hinit, htable⟩

/-- Settles O57: READY and T change with the offer only, and after INIT the table of a good state is the built one,
whether INIT has built it or found READY = 1. -/
theorem buildInvisibleUntilResponse : Obligations.BuildInvisibleUntilResponse := by
  refine ⟨fun p s t hrst hedge hv => ?_, fun s t hgood h => ?_⟩
  · obtain hkept | ⟨hoffered, -⟩ := kept_or_offers_built_of_clockEdge hedge hrst
    · exact hkept
    · rw [hv] at hoffered; cases hoffered
  · obtain ⟨-, hbuilt, -⟩ := hgood
    obtain ⟨hr, rfl⟩ | ⟨-, rfl⟩ := execInit_cases h
    · exact ⟨rfl, hr, hbuilt hr⟩
    · exact ⟨rfl, rfl, rfl⟩

/-! ### The invariant -/

/-- The invariant without its clauses about the offered response: what acceptance, delivery and a build rest on. -/
theorem good_of_not_rspValid {s : State} (hwf : s.table.wf = true) (hready : s.ready = true → s.table = builtTable s.cfg)
    (hv : s.rspValid = false) (hlog : ∀ r ∈ s.log, r.disciplined) : s.good :=
  have hidle : s.rspValid ≠ true := by simp [hv]
  ⟨hwf, hready, fun h => absurd h hidle, fun h => absurd h hidle, hlog⟩

/-- Settles O5: each field of `State.reset` as written there. -/
theorem resetStateHasSpecValues : Obligations.ResetStateHasSpecValues := ⟨rfl, rfl, rfl, rfl, rfl, rfl, rfl, rfl⟩

/-- Settles O6: the empty table is canonical, READY is 0 and nothing was answered. -/
theorem resetStateIsGood : Obligations.ResetStateIsGood := good_of_not_rspValid Table.wf_empty nofun rfl nofun

theorem good_resetBlock {s : State} (h : s.good) : (resetBlock s).good := by
  obtain ⟨-, -, -, -, hlog⟩ := h
  exact good_of_not_rspValid (Table.wf_ofEntries _) nofun rfl hlog

theorem good_accept {s : State} (h : s.good) (r : Request) : (accept r s).good := by
  obtain ⟨hwf, hready, -, -, hlog⟩ := h
  exact good_of_not_rspValid hwf hready rfl hlog

theorem good_deliver {s : State} (h : s.good) (hv : s.rspValid = true) : (deliver s).good := by
  obtain ⟨hwf, hready, -, hrsp, hlog⟩ := h
  refine good_of_not_rspValid hwf hready rfl fun r hr => ?_
  rcases List.mem_append.mp hr with hr | hr
  · exact hlog r hr
  · rw [List.mem_singleton.mp hr]
    exact hrsp hv

theorem good_buildAndSetReady {s : State} (h : s.good) : (buildAndSetReady s).good := by
  obtain ⟨-, -, hbusy, hrsp, hlog⟩ := h
  exact ⟨wf_builtTable s.cfg, fun _ => rfl, hbusy, hrsp, hlog⟩

theorem good_respond {s : State} (h : s.good) (hb : s.busy = true) {r : Response} (hr : r.disciplined) :
    (respond r s).good := by
  obtain ⟨hwf, hready, -, -, hlog⟩ := h
  exact ⟨hwf, hready, fun _ => hb, fun _ => hr, hlog⟩

theorem good_of_runCommand {s t : State} (h : s.good) (hb : s.busy = true) (hrun : runCommand s = .next t) : t.good := by
  have hr := responsesAreDisciplined s t hrun
  obtain ⟨r, rfl | ⟨-, -, rfl⟩⟩ := runCommand_cases hrun
  · exact good_respond h hb hr
  · exact good_respond (good_buildAndSetReady h) hb hr

/-- A command of a good busy state, run and delivered. -/
theorem good_deliver_of_runCommand {s u : State} (h : s.good) (hb : s.busy = true) (hrun : runCommand s = .next u) :
    (deliver u).good := by
  obtain ⟨-, -, -, hv, -⟩ := runCommand_frame hrun
  exact good_deliver (good_of_runCommand h hb hrun) hv

theorem good_of_completeCommand {s t : State} (h : s.good) (hb : s.busy = true) (hend : completeCommand s = .next t) :
    t.good := by
  obtain ⟨hv, rfl⟩ | ⟨-, u, hrun, rfl⟩ := completeCommand_cases hend
  · exact good_deliver h hv
  · exact good_deliver_of_runCommand h hb hrun

theorem good_of_clockEdge {p : Pins} {s t : State} (h : s.good) (hedge : clockEdge p s = .next t) : t.good := by
  obtain ⟨-, rfl⟩ | ⟨-, -, -, rfl⟩ | ⟨-, -, -, rfl⟩ | ⟨-, -, hv, -, rfl⟩ | ⟨-, -, -, -, rfl⟩ | ⟨-, hb, -, -, hrun⟩ |
    ⟨-, -, -, -, rfl⟩ := clockEdge_cases hedge
  · exact good_resetBlock h
  · exact good_accept h p.req
  · exact h
  · exact good_deliver h hv
  · exact h
  · exact good_of_runCommand (s := { s with elapsed := s.elapsed + 1 }) h hb hrun
  · exact h

/-- Settles O9, by cases on the host's next event. What the host holds is no part of the invariant. -/
theorem stepKeepsGood : Obligations.StepKeepsGood := by
  intro s t h hstep
  have hhost (es : List HostEvent) : ({ s with host := es } : State).good := h
  obtain ⟨-, rfl⟩ | ⟨es, -, rfl⟩ | ⟨p, es, -, hedge⟩ | ⟨-, -, -, hb, hend⟩ | ⟨r, es, u, -, -, hrun, rfl⟩ :=
    step_cases hstep
  · exact h
  · exact good_resetBlock (hhost es)
  · exact good_of_clockEdge (hhost es) hedge
  · exact good_of_completeCommand h hb hend
  · exact good_deliver_of_runCommand (good_accept (hhost es) r) rfl hrun

end Sys2Proof.Machine
end

section
/-! PROOFS. The whole effect of the command in flight in terms of what it reads, and from it the port level against the
transaction (30_encoding.md R71, R72) and what an old response reaches (10_state.md R27). -/

namespace Sys2Proof.Machine

/-! ### The command in flight -/

/-- The response of the command in flight (R124, R145, R146, R183). -/
def commandAnswer (s : State) : Response :=
  match decodeCmd s.req.cmd with
  | .ok .init => { Response.blank with status := .ok }
  | .ok (.pack tag) => packAnswer tag s
  | .ok (.unpack rx) => unpackAnswer rx s
  | .error _ => { Response.blank with status := .illegalCommand }

/-- READY and T after the command in flight: those of a completed build after a first INIT (R124), else as they are. -/
def readyAndTableAfter (s : State) : Bool × Table :=
  match decodeCmd s.req.cmd with
  | .ok .init => (true, if s.ready then s.table else builtTable s.cfg)
  | _ => (s.ready, s.table)

/-- The command in flight is its answer and, for a first INIT, the build. -/
theorem runCommand_eq (s : State) :
    runCommand s = .next
      { s with ready := (readyAndTableAfter s).1, table := (readyAndTableAfter s).2, rsp := commandAnswer s,
               rspValid := true } := by
  unfold commandAnswer readyAndTableAfter
  cases hd : decodeCmd s.req.cmd with
  | error e => rw [runCommand_of_illegal hd]; rfl
  | ok i =>
    rw [runCommand_of_legal hd]
    cases i with
    | init =>
      rcases Bool.eq_false_or_eq_true s.ready with hr | hr
      · simp [exec_init_of_ready hr, respond, hr]
      · simp [exec_init_of_not_ready hr, respond, buildAndSetReady, hr]
    | pack tag => rw [exec_pack_eq]; rfl
    | unpack rx => rw [exec_unpack_eq]; rfl

/-- No command reads the count of cycles, the host's events or the last response; of these it writes the response alone. -/
theorem runCommand_of_unread (s : State) (n : Nat) (es : List HostEvent) (old : Response) :
    runCommand { s with elapsed := n, host := es, rsp := old } =
      mapNext (fun t => { t with elapsed := n, host := es }) (runCommand s) := by
  rw [runCommand_eq, runCommand_eq, mapNext_next]
  rfl

/-- Settles O58: the old response is among what no command reads, and the answer overwrites it. -/
theorem oldResponseReachesNoLaterCommand : Obligations.OldResponseReachesNoLaterCommand := by
  have hrun (s : State) (old : Response) : runCommand { s with rsp := old } = runCommand s := by
    rw [runCommand_eq, runCommand_eq]
    rfl
  refine ⟨fun s r old => ?_, hrun⟩
  rw [transact_eq, transact_eq, ← hrun (accept r s) old]
  rfl

/-! ### One clock edge -/

section
variable {p : Pins} {s : State}

theorem clockEdge_of_accept (hrst : p.rst = false) (hb : s.busy = false) (hc : p.cmdValid = true) :
    clockEdge p s = .next (accept p.req s) := by
  simp [clockEdge, hrst, hb, hc]

section
variable (hrst : p.rst = false) (hb : s.busy = true)
include hrst hb

theorem clockEdge_of_take (hv : s.rspValid = true) (hy : p.rspReady = true) : clockEdge p s = .next (deliver s) := by
  simp [clockEdge, hrst, hb, hv, hy]

theorem clockEdge_of_hold (hv : s.rspValid = true) (hy : p.rspReady = false) : clockEdge p s = .next s := by
  simp [clockEdge, hrst, hb, hv, hy]

theorem clockEdge_of_wait (hv : s.rspValid = false) (hlt : s.elapsed + 1 < latency s) :
    clockEdge p s = .next { s with elapsed := s.elapsed + 1 } := by
  simp [clockEdge, hrst, hb, hv, Nat.not_le.mpr hlt]

theorem clockEdge_of_run (hv : s.rspValid = false) (hle : latency s ≤ s.elapsed + 1) :
    clockEdge p s = runCommand { s with elapsed := s.elapsed + 1 } := by
  simp [clockEdge, hrst, hb, hv, hle]

end
end

/-- Settles O56: an edge that does not take the response is a hold, and the outputs are those of BUSY and `rst`. -/
theorem offeredResponseStaysStable : Obligations.OfferedResponseStaysStable := by
  refine ⟨fun p s hb hv hrst hy => ⟨clockEdge_of_hold hrst hb hv hy, ?_⟩, fun s => ?_, fun s => ?_⟩
  · simp [outputs, hb, hv, hrst]
  · simp [outputs]
  · simp [outputs]

/-! ### Runs of clock edges -/

/-- `s` with clock edges as the host's next events and `es` after them. -/
def State.withEdges (s : State) (ps : List Pins) (es : List HostEvent) : State :=
  { s with host := ps.map HostEvent.edge ++ es }

theorem step_withEdges_cons (s : State) (p : Pins) (ps : List Pins) (es : List HostEvent) :
    step (s.withEdges (p :: ps) es) = clockEdge p (s.withEdges ps es) :=
  step_of_edge rfl

/-- A run over clock edges, its first edge taken. -/
theorem run_withEdges_cons {s t : State} {p : Pins} {ps qs : List Pins} {es : List HostEvent} (n : Nat)
    (h : clockEdge p (s.withEdges ps es) = .next (t.withEdges qs es)) :
    core.run (n + 1) (s.withEdges (p :: ps) es) = core.run n (t.withEdges qs es) :=
  core_run_succ ((step_withEdges_cons s p ps es).trans h)

/-- R71: an offered response outlasts any number of edges that do not take it. -/
theorem run_holds {s : State} (hb : s.busy = true) (hv : s.rspValid = true) (n : Nat) {holds : List Pins}
    (hholds : ∀ p ∈ holds, p.rst = false ∧ p.rspReady = false) (ps : List Pins) (es : List HostEvent) :
    core.run (n + holds.length) (s.withEdges (holds ++ ps) es) = core.run n (s.withEdges ps es) := by
  induction holds with
  | nil => rfl
  | cons p holds ih =>
    obtain ⟨hrst, hy⟩ := hholds p (by simp)
    rw [← ih fun q hq => hholds q (by simp [hq])]
    exact run_withEdges_cons _ (clockEdge_of_hold hrst hb hv hy)

/-- R72: a command in flight, `k` cycles after its acceptance, runs on the edge on which its latency is reached. -/
theorem run_waits {s u : State} (hb : s.busy = true) (hv : s.rspValid = false) (hrun : runCommand s = .next u) (n : Nat)
    {waits : List Pins} (hne : waits ≠ []) (hwaits : ∀ p ∈ waits, p.rst = false) {k : Nat}
    (hk : k + waits.length = latency s) (ps : List Pins) (es : List HostEvent) :
    core.run (n + waits.length) (({ s with elapsed := k } : State).withEdges (waits ++ ps) es) =
      core.run n (({ u with elapsed := latency s } : State).withEdges ps es) := by
  induction waits generalizing k with
  | nil => exact absurd rfl hne
  | cons p waits ih =>
    have hrst : p.rst = false := hwaits p (by simp)
    rw [List.length_cons] at hk
    cases waits with
    | nil =>
      have hlast : latency s = k + 1 := by simpa using hk.symm
      have hedge := clockEdge_of_run (s := ({ s with elapsed := k } : State).withEdges ps es) hrst hb hv hlast.le
      have hunread := runCommand_of_unread s (k + 1) (ps.map HostEvent.edge ++ es) s.rsp
      rw [hrun, mapNext_next] at hunread
      rw [hlast]
      exact run_withEdges_cons n (hedge.trans hunread)
    | cons q waits =>
      have hlt : k + 1 < latency s := by rw [← hk, List.length_cons]; omega
      rw [← ih (by simp) (fun x hx => hwaits x (by simp [hx])) (k := k + 1) (by omega)]
      exact run_withEdges_cons _ (clockEdge_of_wait hrst hb hv hlt)

/-- Settles O55: the edges take the command through acceptance, its latency, the hold and the delivery; the transaction
does the same but for the count of cycles. -/
theorem portLevelRefinesTransaction : Obligations.PortLevelRefinesTransaction := by
  intro s r acceptPins takePins waits holds es hb hrst hc hreq hwaits hlen hholds hrst' hy
  subst hreq
  obtain ⟨u, hrun⟩ := runCommand_next (accept acceptPins.req s)
  obtain ⟨-, hub, -, huv, -⟩ := runCommand_frame hrun
  have hne : waits ≠ [] := by
    have hpos : 1 ≤ latency (accept acceptPins.req s) := Nat.le_max_left _ _
    rintro rfl
    rw [← hlen] at hpos
    cases hpos
  have hunread := runCommand_of_unread (accept acceptPins.req s) 0 es s.rsp
  rw [hrun, mapNext_next] at hunread
  have hstep := step_of_command_idle (s := { s with host := .command acceptPins.req :: es }) rfl hb
  refine ⟨_, hstep.trans (congrArg (mapNext deliver) hunread), ?_⟩
  generalize hL : latency (accept acceptPins.req s) = L at *
  have haccept := clockEdge_of_accept (s := s.withEdges (waits ++ (holds ++ [takePins])) es) hrst hb hc
  have htake := clockEdge_of_take (s := ({ u with elapsed := L } : State).withEdges [] es) hrst' hub huv hy
  calc core.run (waits.length + holds.length + 2) (s.withEdges (acceptPins :: (waits ++ (holds ++ [takePins]))) es)
      = core.run (1 + holds.length + waits.length + 1)
          (s.withEdges (acceptPins :: (waits ++ (holds ++ [takePins]))) es) := by congr 1; omega
    _ = core.run (1 + holds.length + waits.length)
          ((accept acceptPins.req s).withEdges (waits ++ (holds ++ [takePins])) es) := run_withEdges_cons _ haccept
    _ = core.run (1 + holds.length) (({ u with elapsed := L } : State).withEdges (holds ++ [takePins]) es) :=
        hL ▸ run_waits (k := 0) rfl rfl hrun _ hne hwaits (by omega) _ es
    _ = core.run 1 (({ u with elapsed := L } : State).withEdges [takePins] es) :=
        run_holds (s := { u with elapsed := L }) hub huv 1 hholds _ es
    _ = core.run 0 ((deliver { u with elapsed := L }).withEdges [] es) := run_withEdges_cons 0 htake

end Sys2Proof.Machine
end

section
/-! PROOFS. RNE64 is rounding to the nearest binary64 value, ties to even, with its exact overflow threshold (00_scope.md
R10, R11). -/

namespace Sys2Proof.Machine.Binary64

/-! ### Values of patterns (R10) -/

theorem abs_val (b : W64) : |val b| = (significand b : ℚ) * 2 ^ unitExp b := by
  have hmag : (0 : ℚ) ≤ (significand b : ℚ) * 2 ^ unitExp b := by positivity
  rw [val, mul_assoc, abs_mul, abs_of_nonneg hmag]
  cases sign b <;> simp

/-- No pattern has a finer unit than the subnormal ones. -/
theorem unitExp_ge (b : W64) : -1074 ≤ unitExp b := by
  unfold unitExp
  omega

/-- On the unit of the binade from `2^e` up a pattern's value is a multiple, unless the pattern lies below that binade. -/
theorem val_eq_mul_or_abs_val_lt (b : W64) (e : Int) :
    (∃ k : Int, val b = k * 2 ^ (e - 52)) ∨ (|val b| < 2 ^ e ∧ e ≠ -1022) := by
  have two : (2 : ℚ) ≠ 0 := by norm_num
  rcases le_or_gt (e - 52) (unitExp b) with h | h
  · obtain ⟨n, hn⟩ := Int.eq_ofNat_of_zero_le (sub_nonneg.mpr h)
    refine .inl ⟨(if sign b then -1 else 1) * significand b * 2 ^ n, ?_⟩
    have hunit : (2 : ℚ) ^ unitExp b = 2 ^ n * 2 ^ (e - 52) := by
      rw [← zpow_natCast, ← zpow_add₀ two, ← hn, sub_add_cancel]
    rw [val, hunit]
    push_cast
    ring
  · refine .inr ⟨?_, by have := unitExp_ge b; omega⟩
    have hsig : (significand b : ℚ) < 2 ^ (53 : Int) := by exact_mod_cast significand_lt b
    calc |val b| = significand b * 2 ^ unitExp b := abs_val b
      _ < 2 ^ (53 : Int) * 2 ^ unitExp b := by gcongr
      _ = 2 ^ (53 + unitExp b) := (zpow_add₀ two _ _).symm
      _ ≤ 2 ^ e := zpow_le_zpow_right₀ (by norm_num) (by omega)

/-- A greater exponent field means a greater magnitude. -/
theorem abs_val_lt_of_biasedExp_lt {b c : W64} (h : biasedExp b < biasedExp c) : |val b| < |val c| := by
  have hc : 2 ^ 52 ≤ significand c := by
    rw [significand, if_neg (by omega)]
    omega
  have hcq : (2 : ℚ) ^ (52 : Int) ≤ significand c := by exact_mod_cast hc
  rcases Nat.eq_zero_or_pos (biasedExp b) with hb | hb
  · have hsig : significand b < 2 ^ 52 := by
      rw [significand, if_pos hb]
      exact fraction_lt b
    have hunit : unitExp b ≤ unitExp c := by unfold unitExp; omega
    rw [abs_val, abs_val]
    calc (significand b : ℚ) * 2 ^ unitExp b < 2 ^ (52 : Int) * 2 ^ unitExp b := by
          gcongr
          exact_mod_cast hsig
      _ ≤ significand c * 2 ^ unitExp c := by
          gcongr
          norm_num
  · have hunit : 1 + unitExp b ≤ unitExp c := by unfold unitExp; omega
    have hsig : (significand b : ℚ) < 2 ^ (53 : Int) := by exact_mod_cast significand_lt b
    rw [abs_val, abs_val]
    calc (significand b : ℚ) * 2 ^ unitExp b < 2 ^ (53 : Int) * 2 ^ unitExp b := by gcongr
      _ = 2 ^ (52 : Int) * 2 ^ (1 + unitExp b) := by
          rw [← zpow_add₀ (by norm_num), ← zpow_add₀ (by norm_num)]
          ring_nf
      _ ≤ significand c * 2 ^ unitExp c := by
          gcongr
          norm_num

/-- R10: sign and value determine the pattern. -/
theorem eq_of_sign_of_val {b c : W64} (hs : sign b = sign c) (hv : val b = val c) : b = c := by
  have hexp : biasedExp b = biasedExp c := by
    rcases lt_trichotomy (biasedExp b) (biasedExp c) with h | h | h
    · have := abs_val_lt_of_biasedExp_lt h
      rw [hv] at this
      exact absurd this (lt_irrefl _)
    · exact h
    · have := abs_val_lt_of_biasedExp_lt h
      rw [hv] at this
      exact absurd this (lt_irrefl _)
  have hunit : unitExp b = unitExp c := by rw [unitExp, unitExp, hexp]
  have habs : (significand b : ℚ) * 2 ^ unitExp c = significand c * 2 ^ unitExp c := by
    rw [← abs_val c, ← hv, abs_val, hunit]
  have hsig : significand b = significand c := by
    exact_mod_cast mul_right_cancel₀ (by positivity : (2 : ℚ) ^ unitExp c ≠ 0) habs
  have hfrac : fraction b = fraction c := by
    rw [significand, significand, hexp] at hsig
    split at hsig <;> omega
  rw [← withSign_self b, ← withSign_self c, hs, hexp, hfrac]

/-! ### Rounding on a grid -/

/-- `R` is `q` rounded to the nearest multiple of `2^(e-52)`, on a tie only if `even`; and `q` is not below `2^e`, unless
`e` is the least exponent (R11). -/
def RoundsOnGrid (q R : ℚ) (e : Int) (even : Prop) : Prop :=
  (2 ^ e ≤ q ∨ e = -1022) ∧ (∃ M : Int, R = M * 2 ^ (e - 52)) ∧ 2 * |R - q| ≤ 2 ^ (e - 52) ∧
    (2 * |R - q| = 2 ^ (e - 52) → even)

/-- The multiple of a unit that lies within half a unit of `q` is the nearest one, and another is as near only on a tie. -/
theorem nearest_multiple {M k : Int} {q u : ℚ} (hu : 0 < u) (h : 2 * |M * u - q| ≤ u) :
    |M * u - q| ≤ |k * u - q| ∧ (|M * u - q| = |k * u - q| → k ≠ M → 2 * |M * u - q| = u) := by
  rcases eq_or_ne k M with rfl | hne
  · exact ⟨le_rfl, fun _ hne => absurd rfl hne⟩
  · have hone : (1 : ℚ) ≤ |(k : ℚ) - M| := by exact_mod_cast Int.one_le_abs (sub_ne_zero.mpr hne)
    have hapart : u ≤ |k * u - M * u| := by
      rw [← sub_mul, abs_mul, abs_of_pos hu]
      nlinarith
    have htri := abs_sub_le (k * u) q (M * u)
    rw [abs_sub_comm q (M * u)] at htri
    exact ⟨by linarith, fun heq _ => by linarith⟩

/-- R11: what is nearest on the grid of `q`'s binade is nearest among all values that lie on that grid or below the
binade. -/
theorem RoundsOnGrid.nearest {q R : ℚ} {e : Int} {even : Prop} (h : RoundsOnGrid q R e even) {v : ℚ}
    (hv : (∃ k : Int, v = k * 2 ^ (e - 52)) ∨ (|v| < 2 ^ e ∧ e ≠ -1022)) :
    |R - q| ≤ |v - q| ∧ (|R - q| = |v - q| → v ≠ R → even) := by
  obtain ⟨hlow, ⟨M, rfl⟩, herr, htie⟩ := h
  have hu : (0 : ℚ) < 2 ^ (e - 52) := by positivity
  rcases hv with ⟨k, rfl⟩ | ⟨hbelow, he⟩
  · obtain ⟨hle, heq⟩ := nearest_multiple (k := k) hu herr
    exact ⟨hle, fun h hne => htie (heq h fun hk => hne (by rw [hk]))⟩
  · have hq : 2 ^ e ≤ q := hlow.resolve_right he
    obtain ⟨hle, -⟩ := nearest_multiple (k := 2 ^ 52) hu herr
    have hbinade : ((2 ^ 52 : Int) : ℚ) * 2 ^ (e - 52) = 2 ^ e := by
      rw [zpow_sub₀ (by norm_num)]
      push_cast
      field_simp
    rw [hbinade, abs_sub_comm (2 ^ e) q, abs_of_nonneg (sub_nonneg.mpr hq)] at hle
    have hlt : |↑M * 2 ^ (e - 52) - q| < |v - q| := by
      have hv := (le_abs_self v).trans_lt hbelow
      calc |↑M * 2 ^ (e - 52) - q| ≤ q - 2 ^ e := hle
        _ < q - v := by linarith
        _ ≤ |q - v| := le_abs_self _
        _ = |v - q| := abs_sub_comm q v
    exact ⟨hlt.le, fun heq => absurd heq hlt.ne⟩

/-! ### What RNE64 answers -/

/-- R11's threshold: half a unit above the largest finite value. -/
theorem overflow_eq : (2 : ℚ) ^ 1024 - 2 ^ 970 = (2 ^ 53 - 1 / 2) * 2 ^ (971 : Int) := by
  have h971 : (2 : ℚ) ^ (971 : Int) = 2 * 2 ^ 970 := (zpow_natCast 2 971).trans (pow_succ' 2 970)
  have h1024 : (2 : ℚ) ^ 1024 = 2 ^ 54 * 2 ^ 970 := pow_add 2 54 970
  rw [h971, h1024]
  generalize (2 : ℚ) ^ 970 = x
  ring

section
variable {q : ℚ} {e : Int}

/-- R11: a binade above the last one lies beyond the threshold. -/
theorem overflow_le_of_binade (he : 1023 < e) (hq : 2 ^ e ≤ q) : (2 : ℚ) ^ 1024 - 2 ^ 970 ≤ q := by
  have hpow : (2 : ℚ) ^ (53 : Int) * 2 ^ (971 : Int) ≤ 2 ^ e := by
    rw [← zpow_add₀ (by norm_num)]
    exact zpow_le_zpow_right₀ (by norm_num) (by omega)
  have hW : (0 : ℚ) < 2 ^ (971 : Int) := by positivity
  rw [overflow_eq]
  generalize (2 : ℚ) ^ (971 : Int) = W at *
  linarith

section
variable (herr : 2 * |2 ^ 53 * 2 ^ (e - 52) - q| ≤ 2 ^ (e - 52))
include herr

/-- R11: a significand rounded up to the next binade from the last one, or above, comes from the threshold or above. -/
theorem overflow_le_of_carry (he : 1023 < e + 1) : (2 : ℚ) ^ 1024 - 2 ^ 970 ≤ q := by
  have hunit : (2 : ℚ) ^ (971 : Int) ≤ 2 ^ (e - 52) := zpow_le_zpow_right₀ (by norm_num) (by omega)
  rw [overflow_eq]
  generalize (2 : ℚ) ^ (971 : Int) = W at *
  have := le_abs_self (2 ^ 53 * 2 ^ (e - 52) - q)
  linarith

/-- R11: a significand rounded up to a binade of the format comes from below the threshold. -/
theorem lt_overflow_of_carry (he : ¬ 1023 < e + 1) : q < (2 : ℚ) ^ 1024 - 2 ^ 970 := by
  have hunit : (2 : ℚ) * 2 ^ (e - 52) ≤ 2 ^ (971 : Int) := by
    rw [← zpow_one_add₀ (by norm_num)]
    exact zpow_le_zpow_right₀ (by norm_num) (by omega)
  have hu : (0 : ℚ) < 2 ^ (e - 52) := by positivity
  rw [overflow_eq]
  generalize (2 : ℚ) ^ (971 : Int) = W at *
  have := neg_abs_le (2 ^ 53 * 2 ^ (e - 52) - q)
  linarith

end

/-- R11: at the threshold the greatest significand would be a tie, but it is odd; so a rounded significand of the format
comes from below the threshold. -/
theorem lt_overflow_of_significand {M : Nat} (hM : M < 2 ^ 53) (he : ¬ 1023 < e)
    (herr : 2 * |(M : ℚ) * 2 ^ (e - 52) - q| ≤ 2 ^ (e - 52))
    (htie : 2 * |(M : ℚ) * 2 ^ (e - 52) - q| = 2 ^ (e - 52) → M % 2 = 0) : q < (2 : ℚ) ^ 1024 - 2 ^ 970 := by
  have hunit : (2 : ℚ) ^ (e - 52) ≤ 2 ^ (971 : Int) := zpow_le_zpow_right₀ (by norm_num) (by omega)
  have hu : (0 : ℚ) < 2 ^ (e - 52) := by positivity
  have hMq : (M : ℚ) + 1 ≤ 2 ^ 53 := by exact_mod_cast hM
  rw [overflow_eq]
  generalize (2 : ℚ) ^ (971 : Int) = W at *
  generalize (2 : ℚ) ^ (e - 52) = u at *
  by_contra hge
  have hdist := neg_abs_le ((M : ℚ) * u - q)
  have hmul : ((M : ℚ) + 1) * u ≤ 2 ^ 53 * u := by gcongr
  have heven := htie (by linarith)
  have hodd : (M : ℚ) + 1 = 2 ^ 53 := mul_right_cancel₀ hu.ne' (by linarith)
  have hodd' : M + 1 = 2 ^ 53 := by exact_mod_cast hodd
  omega

end

/-- What RNE64 answers on a magnitude `q`, zero included: the infinity from the threshold up, and below it the finite
value that is `q` rounded on a grid. -/
def Rne64Outcome (neg : Bool) (q : ℚ) (r : W64) : Prop :=
  (2 ^ 1024 - 2 ^ 970 ≤ q ∧ r = withSign neg infMag) ∨
  (q < 2 ^ 1024 - 2 ^ 970 ∧ ∃ (M : Nat) (e : Int), FitsFormat M e ∧ r = withSign neg (finiteMag M e) ∧
    ∃ e', RoundsOnGrid q (M * 2 ^ (e - 52)) e' (M % 2 = 0))

theorem rne64Outcome_zero (neg : Bool) : Rne64Outcome neg 0 (withSign neg 0) := by
  have hfit : FitsFormat 0 (-1022) := ⟨by norm_num, le_rfl, by norm_num, fun _ => rfl⟩
  refine .inr ⟨?_, 0, -1022, hfit, rfl, -1022, .inr rfl, ⟨0, by simp⟩, ?_, fun _ => rfl⟩
  · rw [overflow_eq]
    exact mul_pos (by norm_num) (by positivity)
  · rw [Nat.cast_zero, zero_mul, sub_zero, abs_zero, mul_zero]
    positivity

/-- R11 on every magnitude. -/
theorem rne64_outcome (neg : Bool) (num : Nat) {den : Nat} (hd : 0 < den) :
    Rne64Outcome neg ((num : ℚ) / den) (rne64 neg num den) := by
  rcases Nat.eq_zero_or_pos num with rfl | hn
  · rw [rne64_zero, Nat.cast_zero, zero_div]
    exact rne64Outcome_zero neg
  obtain ⟨M, e, he, -, hlow, hM, hsub, herr, htie, hr⟩ := rne64_cases neg hn hd
  generalize (num : ℚ) / den = q at *
  rw [hr]
  by_cases hcarry : M = 2 ^ 53
  · have hMq : (M : ℚ) = 2 ^ 53 := by exact_mod_cast hcarry
    rw [hMq] at herr
    rw [if_pos hcarry]
    split
    case isTrue hbig => exact .inl ⟨overflow_le_of_carry herr hbig, rfl⟩
    case isFalse hbig =>
      have hfit : FitsFormat (2 ^ 52) (e + 1) := ⟨by norm_num, by omega, by omega, fun h => absurd h (lt_irrefl _)⟩
      have hbinade : ((2 ^ 52 : Nat) : ℚ) * 2 ^ (e + 1 - 52) = 2 ^ 53 * 2 ^ (e - 52) := by
        rw [show e + 1 - 52 = e - 52 + 1 by ring, zpow_add_one₀ (by norm_num)]
        push_cast
        ring
      refine .inr ⟨lt_overflow_of_carry herr hbig, 2 ^ 52, e + 1, hfit, rfl, e, hlow, ⟨2 ^ 53, ?_⟩, ?_, fun _ => rfl⟩
      · rw [hbinade]
        norm_num
      · rwa [hbinade]
  · rw [if_neg hcarry]
    split
    case isTrue hbig => exact .inl ⟨overflow_le_of_binade hbig (hlow.resolve_right (by omega)), rfl⟩
    case isFalse hbig =>
      have hlt : M < 2 ^ 53 := lt_of_le_of_ne hM hcarry
      have hfit : FitsFormat M e := ⟨hlt, he, by omega, hsub⟩
      exact .inr ⟨lt_overflow_of_significand hlt hbig herr htie, M, e, hfit, rfl, e, hlow, ⟨M, by norm_num⟩, herr, htie⟩

theorem infMag_lt : infMag < 2 ^ 63 := by decide

theorem isFinite_infMag (neg : Bool) : isFinite (withSign neg infMag) = false := by
  rw [isFinite, biasedExp_withSign infMag_lt]
  rfl

/-- R11: RNE64 is finite exactly below the threshold. -/
theorem isFinite_rne64_iff (neg : Bool) (num : Nat) {den : Nat} (hd : 0 < den) :
    isFinite (rne64 neg num den) = true ↔ (num : ℚ) / den < 2 ^ 1024 - 2 ^ 970 := by
  rcases rne64_outcome neg num hd with ⟨hge, hr⟩ | ⟨hlt, M, e, hfit, hr, -⟩
  · rw [hr, isFinite_infMag]
    exact iff_of_false nofun (not_lt.mpr hge)
  · rw [hr]
    exact iff_of_true (isFinite_finiteMag neg hfit) hlt

theorem sign_rne64 (neg : Bool) (num : Nat) {den : Nat} (hd : 0 < den) : sign (rne64 neg num den) = neg := by
  rcases rne64_outcome neg num hd with ⟨-, hr⟩ | ⟨-, M, e, hfit, hr, -⟩
  · rw [hr, sign_withSign infMag_lt]
  · rw [hr]
    obtain ⟨-, -, hsign, -⟩ := fields_finiteMag neg hfit
    exact hsign

/-- R11: what is not finite is an infinity. -/
theorem fraction_rne64 (neg : Bool) (num : Nat) {den : Nat} (hd : 0 < den)
    (h : isFinite (rne64 neg num den) = false) : fraction (rne64 neg num den) = 0 := by
  rcases rne64_outcome neg num hd with ⟨-, hr⟩ | ⟨-, M, e, hfit, hr, -⟩
  · rw [hr, fraction_withSign infMag_lt]
    rfl
  · rw [hr, isFinite_finiteMag neg hfit] at h
    cases h

/-- R11's threshold in integers. -/
theorem overflow_le_div_iff {num den : Nat} (hd : 0 < den) :
    (2 : ℚ) ^ 1024 - 2 ^ 970 ≤ (num : ℚ) / den ↔ (2 ^ 1024 - 2 ^ 970) * den ≤ num := by
  have hle : 2 ^ 970 ≤ 2 ^ 1024 := pow_le_pow_right₀ one_le_two (by norm_num)
  rw [le_div_iff₀ (by exact_mod_cast hd), ← Nat.cast_le (α := ℚ), Nat.cast_mul, Nat.cast_sub hle, Nat.cast_pow,
    Nat.cast_pow, Nat.cast_ofNat]

/-- A significand and its fraction field have the same parity: the hidden bit is even. -/
theorem fraction_mod_two (b : W64) : fraction b % 2 = significand b % 2 := by
  rw [significand]
  split <;> omega

/-- Settles O26: the finite result is nearest on the grid of its binade, where every pattern lies that is not below the
binade. The sign turns both distances over together. -/
theorem rne64IsNearestEven : Obligations.Rne64IsNearestEven := by
  intro neg num den b hd hfin _
  rcases rne64_outcome neg num hd with ⟨-, hr⟩ | ⟨-, M, e, hfit, hr, e', hgrid⟩
  · rw [hr, isFinite_infMag] at hfin
    cases hfin
  obtain ⟨hsig, -⟩ := fields_finiteMag neg hfit
  rw [fraction_mod_two, hr, hsig, val_finiteMag neg hfit, signedRat, mul_assoc]
  generalize (num : ℚ) / den = q at *
  generalize (M : ℚ) * 2 ^ (e - 52) = R at *
  have hb := val_eq_mul_or_abs_val_lt b e'
  generalize val b = v at *
  cases neg with
  | false => simpa using hgrid.nearest hb
  | true =>
    have hneg : (∃ k : Int, -v = k * 2 ^ (e' - 52)) ∨ (|-v| < 2 ^ e' ∧ e' ≠ -1022) := by
      rw [abs_neg]
      refine hb.imp_left ?_
      rintro ⟨k, rfl⟩
      exact ⟨-k, by push_cast; ring⟩
    have hdist (x : ℚ) : |-1 * x - -1 * q| = |x - q| := by rw [← mul_sub, abs_mul]; simp
    have hv : v = -1 * -v := by ring
    obtain ⟨hle, heq⟩ := hgrid.nearest hneg
    rw [if_pos rfl, hv, hdist, hdist]
    exact ⟨hle, fun h hne => heq h fun hR => hne (by rw [hR])⟩

/-- Settles O27: the sign is kept, and what is not finite is the infinity from the threshold up. -/
theorem rne64OverflowsToInfinity : Obligations.Rne64OverflowsToInfinity := by
  intro neg num den hd
  refine ⟨sign_rne64 neg num hd, ?_, ?_⟩
  · rw [isNaN, decide_eq_false_iff_not]
    rintro ⟨hexp, hfrac⟩
    exact hfrac (fraction_rne64 neg num hd (by simp [isFinite, hexp]))
  · rw [← overflow_le_div_iff hd, ← not_lt, ← isFinite_rne64_iff neg num hd, Bool.not_eq_true, isInf,
      decide_eq_true_iff]
    constructor
    · rintro ⟨hexp, -⟩
      simp [isFinite, hexp]
    · intro hfin
      exact ⟨by simpa [isFinite] using hfin, fraction_rne64 neg num hd hfin⟩

/-! ### Products (R103, R104) -/

/-- R104: the product is finite exactly below the threshold of its exact magnitude. -/
theorem isFinite_mulNat_iff (v : W64) (k : Nat) :
    isFinite (mulNat v k) = true ↔ |val v * k| < 2 ^ 1024 - 2 ^ 970 := by
  rw [← signedRat_mulNat, abs_signedRat]
  exact isFinite_rne64_iff _ _ (by positivity)

/-- R10: a finite value lies below the threshold. -/
theorem abs_val_lt_overflow {b : W64} (h : isFinite b = true) : |val b| < 2 ^ 1024 - 2 ^ 970 := by
  have hexp : biasedExp b < 2047 := lt_of_le_of_ne (Nat.le_of_lt_succ (biasedExp_lt b)) ((isFinite_iff b).mp h)
  have hunit : unitExp b ≤ 971 := by unfold unitExp; omega
  have hsig : (significand b : ℚ) ≤ 2 ^ 53 - 1 := by
    have : significand b + 1 ≤ 2 ^ 53 := significand_lt b
    have : (significand b : ℚ) + 1 ≤ 2 ^ 53 := by exact_mod_cast this
    linarith
  rw [overflow_eq]
  calc |val b| = significand b * 2 ^ unitExp b := abs_val b
    _ ≤ (2 ^ 53 - 1) * 2 ^ (971 : Int) := by
        gcongr
        norm_num
    _ < (2 ^ 53 - 1 / 2) * 2 ^ (971 : Int) := by
        gcongr
        norm_num

/-- Settles O28: the exact product is the value of `b` itself, to which nothing is nearer, and the sign is kept. -/
theorem multiplyByOneIsIdentity : Obligations.MultiplyByOneIsIdentity := by
  intro b hb
  have hden : 0 < 2 ^ (-(unitExp b)).toNat := by positivity
  have hprod := signedRat_mulNat b 1
  have hfin := (isFinite_mulNat_iff b 1).mpr (by simpa using abs_val_lt_overflow hb)
  obtain ⟨hnearest, -⟩ := rne64IsNearestEven _ _ _ b hden hfin hb
  rw [hprod, Nat.cast_one, mul_one (val b), sub_self, abs_zero] at hnearest
  exact eq_of_sign_of_val (sign_rne64 _ _ hden) (sub_eq_zero.mp (abs_nonpos_iff.mp hnearest))

end Sys2Proof.Machine.Binary64
end

section
/-! PROOFS. What the rounding rules make of encode and decode: the values that encode rejects, the products whose code is
0, and the enumerated integers (41_codec.md R103, R104, R111, R123, R131). -/

namespace Sys2Proof.Machine

/-! ### INVALID (R103, R104) -/

/-- R103, R104: encode is INVALID exactly where one of its two tests fails. -/
theorem encodeValue_eq_invalid_iff {cfg : Config} {v : W64} :
    encodeValue cfg v = .invalid ↔ Binary64.isFinite v = false ∨ Binary64.isFinite (scaledProduct v) = false := by
  rcases encodeValue_cases cfg v with ⟨hv, he⟩ | ⟨-, hp, he⟩ | ⟨hv, hp, -, -, he⟩ | ⟨hv, hp, -, he⟩
  · exact iff_of_true he (.inl hv)
  · exact iff_of_true he (.inr hp)
  · simp [he, hv, hp]
  · simp [he, hv, hp]

/-- R104: the scaled product overflows exactly from the threshold up. -/
theorem isFinite_scaledProduct_eq_false_iff (v : W64) :
    Binary64.isFinite (scaledProduct v) = false ↔ (2 : ℚ) ^ 1024 - 2 ^ 970 ≤ |Binary64.val v| * 10000 := by
  have habs : |Binary64.val v * (Config.scale : Nat)| = |Binary64.val v| * 10000 := by
    rw [abs_mul]
    norm_num [Config.scale]
  rw [← Bool.not_eq_true, scaledProduct, Binary64.isFinite_mulNat_iff, habs, not_lt]

/-- Settles O29: the second test of encode is the overflow of the product. -/
theorem encodeInvalidExactly : Obligations.EncodeInvalidExactly := by
  intro cfg v
  rw [encodeValue_eq_invalid_iff, isFinite_scaledProduct_eq_false_iff]

/-! ### Large products (R111) -/

/-- R111: a magnitude of `2^68` or more has a unit of `2^16` or more, its significand being below `2^53`. -/
theorem unitExp_ge_of_large {b : W64} (h : (2 : ℚ) ^ 68 ≤ |Binary64.val b|) : 16 ≤ Binary64.unitExp b := by
  by_contra hlt
  have hsig : (Binary64.significand b : ℚ) < 2 ^ 53 := by exact_mod_cast Binary64.significand_lt b
  have hunit : (2 : ℚ) ^ Binary64.unitExp b ≤ 2 ^ (15 : Int) := zpow_le_zpow_right₀ (by norm_num) (by omega)
  refine absurd h (not_le.mpr ?_)
  calc |Binary64.val b| = Binary64.significand b * 2 ^ Binary64.unitExp b := Binary64.abs_val b
    _ < 2 ^ 53 * 2 ^ Binary64.unitExp b := by gcongr
    _ ≤ 2 ^ 53 * 2 ^ (15 : Int) := mul_le_mul_of_nonneg_left hunit (by norm_num)
    _ = 2 ^ 68 := by norm_num

/-- R111: the scaled integer of such a product is a multiple of `2^16`, and not 0. -/
theorem rha_of_large {b : W64} (h : (2 : ℚ) ^ 68 ≤ |Binary64.val b|) :
    Binary64.rha b % 65536 = 0 ∧ Binary64.rha b ≠ 0 := by
  obtain ⟨n, hn⟩ := Int.eq_ofNat_of_zero_le (sub_nonneg.mpr (unitExp_ge_of_large h))
  have hunit : Binary64.unitExp b = ((16 + n : Nat) : Int) := by omega
  have hsig : Binary64.significand b ≠ 0 := by
    intro h0
    rw [Binary64.abs_val, h0, Nat.cast_zero, zero_mul] at h
    norm_num at h
  have hmag : Binary64.rhaMag (Binary64.significand b) (Binary64.unitExp b) =
      65536 * (Binary64.significand b * 2 ^ n) := by
    rw [Binary64.rhaMag, if_pos (by omega), hunit, Int.toNat_natCast, pow_add]
    ring
  have hpos : 0 < Binary64.significand b * 2 ^ n := by positivity
  rw [Binary64.rha_eq_rhaMag, hmag]
  generalize Binary64.significand b * 2 ^ n = k at *
  split <;> omega

/-- Settles O33: a nonzero multiple of `2^16` has the code 0 and lies beyond the default bound. -/
theorem largeProductsHaveCodeZero : Obligations.LargeProductsHaveCodeZero := by
  intro cfg v hv hprod hlarge
  obtain ⟨hmod, hne⟩ : scaledInteger v % 65536 = 0 ∧ scaledInteger v ≠ 0 := rha_of_large hlarge
  refine ⟨fun hp => ?_, fun hp hb => encodeValue_of_lt hv hprod hp ?_⟩
  · have hcode : codeOf (scaledInteger v) = 0 := codeOf_eq_iff.mpr hmod
    rw [encodeValue_of_wrap hv hprod hp, hcode]
  · rw [hb, ← lt_natAbs_iff_lt_abs]
    omega

/-! ### Enumerated integers and entries (R123, R131) -/

/-- Settles O34: the quotient of a 32-bit integer scales back to it. -/
theorem enumeratedValuesEncodeToTheirCode : Obligations.EnumeratedValuesEncodeToTheirCode := by
  intro cfg i hp hlo hhi
  have habs : |i| ≤ 2 ^ 31 := abs_le.mpr ⟨by omega, by omega⟩
  obtain ⟨hfin, hprod, hi⟩ := scaledInteger_divNat habs
  have henc := encodeValue_of_wrap hfin hprod hp
  rw [hi] at henc
  exact ⟨hi, codeOf i, henc, codeOf_toNat i⟩

/-- R7: the domain that a well-formed configuration enumerates fits the 32-bit `S` fields. -/
theorem domain_bounds_of_wellFormed {cfg : Config} (h : cfg.wellFormed = true) :
    -2 ^ 31 ≤ cfg.domain.1 ∧ cfg.domain.2 < 2 ^ 31 := by
  simp only [Config.wellFormed, Bool.and_eq_true, decide_eq_true_eq] at h
  obtain ⟨⟨⟨hlo, -⟩, hhi⟩, hbound⟩ := h
  cases hp : cfg.policy with
  | wrap =>
    rw [Config.domain_of_wrap hp]
    constructor <;> dsimp only <;> omega
  | rangeChecked =>
    rw [Config.domain_of_rangeChecked hp]
    constructor <;> dsimp only <;> omega

/-- R122: an entry of the built table lies in the enumerated domain. -/
theorem entry_mem_domain {cfg : Config} {c : W16} {e : Int} (h : (builtTable cfg).read c = some e) :
    cfg.domain.1 ≤ e ∧ e ≤ cfg.domain.2 := by
  rw [read_builtTable, greatestInClass_eq_some c.isLt] at h
  obtain ⟨hlo, hhi, -⟩ := h
  exact ⟨hlo, hhi⟩

/-- R131: 0 decodes to +0.0. -/
theorem divNat_zero (k : Nat) : Binary64.divNat 0 k = 0 := Binary64.rne64_zero false k

/-- Settles O35: an entry of a well-formed configuration is a 32-bit integer, which its `S` field holds and whose quotient
is finite. -/
theorem decodedFieldsHoldEntry : Obligations.DecodedFieldsHoldEntry := by
  intro cfg c e hwf he
  obtain ⟨hdlo, hdhi⟩ := domain_bounds_of_wellFormed hwf
  obtain ⟨hlo, hhi⟩ := entry_mem_domain he
  have habs : |e| ≤ 2 ^ 31 := abs_le.mpr ⟨by omega, by omega⟩
  obtain ⟨hfin, -⟩ := scaledInteger_divNat habs
  rw [decodeCode_of_some he]
  refine ⟨?_, hfin, ?_⟩
  · rw [DecodeResult.sField, BitVec.toInt_ofInt_eq_self (by decide)]
    · omega
    · omega
  · rintro rfl
    exact divNat_zero _

end Sys2Proof.Machine
end
